-- ==== Sys2Proof/Word.lean ====
section
/-! DEFINITION. The value types of the engine: bytes on the ports, 64-bit lanes, 32-bit command and response words,
and the 25-lane KeccakState. All values are unsigned bit patterns (rule R11). -/

namespace Sys2Proof

/-- One byte of a port stream (rule R40). -/
abbrev Byte := BitVec 8

/-- One lane of the KeccakState (rule R21), `W` = 64 bits (rule R7). -/
abbrev Lane := BitVec 64

/-- A command word or a response word (rules R61, R67). -/
abbrev Word32 := BitVec 32

/-- Five lanes of one row, or one value per column (rules R32, R83, R87). -/
abbrev FiveLanes := Vector Lane 5

/-- The KeccakState: `LANES` = 25 lanes of 64 bits (rules R7, R21). Lane `i` is `A[i]`. -/
abbrev Lanes := Vector Lane 25

end Sys2Proof
end

