-- ==== Sys2Proof/Config.lean ====
section
/-! DEFINITION. What the spec leaves to a platform or an implementation (rules R9, R10; Part A of
93_implementation_defined.md). Every constant here is opaque: it has no value in Lean, so nothing proved about the
model rests on one. -/

namespace Sys2Proof.Config

/-- One less than `PERM_LATENCY` (log 6). -/
opaque permLatencyLessOne : Nat

/-- One less than `CMD_LATENCY` (log 6). -/
opaque cmdLatencyLessOne : Nat

/-- One less than `N_INSTANCES` (log 7). -/
opaque nInstancesLessOne : Nat

/-- `PERM_LATENCY`: the engine cycles one permutation takes, positive and finite (rule R9). No rule depends on it
(rule R168); only `Timing.permutationCycles` reads it. -/
def permLatency : Nat := permLatencyLessOne + 1

/-- `CMD_LATENCY`: the cycles from the last payload byte of a command to its response word, positive and finite
(rule R9, decision D17). No rule depends on it (rule R168); only `Timing.cycleBound` reads it. -/
def cmdLatency : Nat := cmdLatencyLessOne + 1

/-- `N_INSTANCES` ≥ 1: how many engines the platform holds (rule R10). Only `Platform.reset` reads it. -/
def nInstances : Nat := nInstancesLessOne + 1

/-- FREE VALUE (log 5): the lane numbered `i` of the core's working state, at the `n`-th time the spec leaves that
state open (rule R32, entry U2). -/
opaque freeLane (n i : Nat) : Lane

/-- FREE VALUE (log 5): the core's round counter at the `n`-th time the spec leaves it open (rule R32, entry U2). -/
opaque freeRound (n : Nat) : Fin 24

end Sys2Proof.Config
end

