-- ==== Sys2Proof/Syntax.lean ====
section
/-! DEFINITION. The engine's four commands, one constructor per row of the opcode table (rule R62), and the three
classes of illegal command word (rule R65). A command carries its payload, its only operand data (rule R63); `LEN` is
the payload's length. -/

namespace Sys2Proof

/-- A command of engine command set 1 (rules R61 to R63). -/
inductive Instr where
  /-- `INIT`: start a new message (rule R115). -/
  | init
  /-- `ABSORB`: absorb one 136-byte message block (rule R116). -/
  | absorb (block : List Byte)
  /-- `FINAL`: pad and absorb the message tail of 0 to 135 bytes (rule R117). -/
  | final (tail : List Byte)
  /-- `SQUEEZE`: return the 32-byte digest (rule R118). -/
  | squeeze
  deriving DecidableEq, Repr

/-- Why a command word is illegal: classes (b), (c) and (d) of rule R65. -/
inductive Illegal where
  /-- `OPC` is 0x00 or 0x05 to 0xFF. -/
  | reservedOpcode
  /-- A defined `OPC` with `RSV` not zero. -/
  | reservedBits
  /-- A defined `OPC` with `RSV` zero and a `LEN` that the opcode does not allow. -/
  | badLength
  deriving DecidableEq, Repr

end Sys2Proof
end

