-- ==== Sys2Proof/WellFormed.lean ====
section
/-! DEFINITION. Which terms of `Instr` are commands that a legal command word can announce: the required `LEN` column
of rule R62. -/

namespace Sys2Proof

/-- The payload has a length that rule R62 allows: 136 for ABSORB, 0 to `MAX_TAIL` = 135 for FINAL (rule R7). -/
def Instr.wf : Instr → Bool
  | .init => true
  | .absorb block => block.length == 136
  | .final tail => tail.length ≤ 135
  | .squeeze => true

/-- `Instr.wf` as a proposition that `decide` runs on. -/
abbrev Instr.WellFormed (i : Instr) : Prop := i.wf = true

end Sys2Proof
end

