-- ==== Sys2Proof/Decode.lean ====
section
/-! DEFINITION. Command frames: the decoder, total on every byte string and rejecting by name, and the encoder
(30_encoding.md, rules R60 to R65, R69). -/

namespace Sys2Proof

/-! ### Fields and byte order -/

/-- `OPC` = `word[7:0]` (rule R61). -/
def opcField (word : Word32) : Byte := word.extractLsb' 0 8

/-- `LEN` = `word[15:8]` (rule R61). -/
def lenField (word : Word32) : Byte := word.extractLsb' 8 8

/-- `RSV` = `word[31:16]` (rule R61). -/
def rsvField (word : Word32) : BitVec 16 := word.extractLsb' 16 16

/-- How many payload bytes a command word announces: `LEN`, unsigned, never scaled (rule R63). -/
def payloadLength (word : Word32) : Nat := (lenField word).toNat

/-- The 32-bit word whose bytes arrive in the order `b0 b1 b2 b3`, least significant first (rule R43). -/
def le32 (b0 b1 b2 b3 : Byte) : Word32 := b3 ++ b2 ++ b1 ++ b0

/-- The four bytes of a word in the order they travel (rule R43). -/
def le32Bytes (word : Word32) : List Byte :=
  [word.extractLsb' 0 8, word.extractLsb' 8 8, word.extractLsb' 16 8, word.extractLsb' 24 8]

/-! ### The decoder -/

/-- The four opcodes of rule R62. -/
inductive Opcode where
  | init | absorb | final | squeeze
  deriving DecidableEq, Repr

/-- The opcode map of rule R62; `none` is a reserved opcode. -/
def Opcode.ofField (opc : Byte) : Option Opcode :=
  match opc.toNat with
  | 1 => some .init
  | 2 => some .absorb
  | 3 => some .final
  | 4 => some .squeeze
  | _ => none

/-- The required `LEN` column of rule R62. -/
def Opcode.allowsLength (op : Opcode) (len : Nat) : Bool :=
  match op with
  | .init => len == 0
  | .absorb => len == 136
  | .final => len ≤ 135
  | .squeeze => len == 0

/-- The command an opcode names, with its payload (rule R63). -/
def Opcode.command (op : Opcode) (payload : List Byte) : Instr :=
  match op with
  | .init => .init
  | .absorb => .absorb payload
  | .final => .final payload
  | .squeeze => .squeeze

/-- Decode a complete frame: the encoding checks of rule R142, in its order (reserved opcode, reserved bits, bad
length), then the command. -/
def decodeFrame (word : Word32) (payload : List Byte) : Except Illegal Instr :=
  match Opcode.ofField (opcField word) with
  | none => .error .reservedOpcode
  | some op =>
    if rsvField word ≠ 0 then .error .reservedBits
    else if op.allowsLength (payloadLength word) then .ok (op.command payload)
    else .error .badLength

/-- Cut the first frame off a byte string: a command word, then exactly `LEN` payload bytes whatever `OPC` and `RSV`
hold (rules R60, R64). `none` when the bytes end inside the frame (rule R166). -/
def takeFrame : List Byte → Option (Word32 × List Byte × List Byte)
  | b0 :: b1 :: b2 :: b3 :: rest =>
    let word := le32 b0 b1 b2 b3
    if payloadLength word ≤ rest.length then
      some (word, rest.take (payloadLength word), rest.drop (payloadLength word))
    else none
  | _ => none

/-- What the bytes of the command port begin with. -/
inductive Decoded where
  /-- The bytes end inside a frame; the engine waits for more (rule R166). -/
  | truncated
  /-- A complete frame whose word is illegal, and the bytes after it (rules R64, R65). -/
  | illegal (why : Illegal) (rest : List Byte)
  /-- A complete legal frame, and the bytes after it. -/
  | command (i : Instr) (rest : List Byte)
  deriving DecidableEq, Repr

/-- Decode the first frame of a byte string. -/
def decode (bytes : List Byte) : Decoded :=
  match takeFrame bytes with
  | none => .truncated
  | some (word, payload, rest) =>
    match decodeFrame word payload with
    | .error why => .illegal why rest
    | .ok i => .command i rest

/-! ### The encoder -/

/-- A legal command word from its opcode and length: `RRRRRRRRRRRRRRRR LLLLLLLL OOOOOOOO`, most significant bit first,
with `RSV` zero (rule R61). -/
def commandWord (opc len : Byte) : Word32 := (0 : BitVec 16) ++ len ++ opc

/-- The payload bytes of a command (rule R63). -/
def Instr.payload : Instr → List Byte
  | .init => []
  | .absorb block => block
  | .final tail => tail
  | .squeeze => []

/-- The command word of a command (rules R62, R69). -/
def encodeWord : Instr → Word32
  | .init => commandWord 1 0
  | .absorb _ => commandWord 2 136
  | .final tail => commandWord 3 (BitVec.ofNat 8 tail.length)
  | .squeeze => commandWord 4 0

/-- The frame of a command as it travels on the command port (rules R43, R60). -/
def encode (i : Instr) : List Byte := le32Bytes (encodeWord i) ++ i.payload

/-! ### The opcode table's numbering -/

/-- An instruction of `nbits` bits numbered as the opcode table numbers them, as the bytes that travel on the command
port: byte `k` is bits `[8k+7 : 8k]` (rule R43), and every byte above `nbits` is 0. 259 bytes are the longest frame
(rule R60). -/
def tableBytes (nbits w : Nat) : List Byte :=
  (List.range 259).map fun k => if 8 * k < nbits then BitVec.ofNat 8 (w >>> (8 * k)) else 0

/-- The instruction the decoder reads from a row of the opcode table; `none` where it rejects the word. -/
def decodeTableWord (nbits w : Nat) : Option Instr :=
  match decode (tableBytes nbits w) with
  | .truncated => none
  | .illegal _ _ => none
  | .command i _ => some i

end Sys2Proof
end

