-- ==== Sys2Proof/Machine/State.lean ====
section
/-! DEFINITION. The engine's state (rule R20), the byte streams on its two ports (rule R40), the outside world's next
acts, and the reset state (rule R34). All of it is plain data. -/

namespace Sys2Proof.Machine

/-- `PHASE` (rule R27). The reserved value 3, "never held", has no constructor (entry U6, log 13). -/
inductive Phase where
  /-- A message is being absorbed and FINAL has not run. -/
  | absorbing
  /-- FINAL has run; the digest is in lanes 0 to 3. -/
  | squeezing
  /-- A command was rejected; no digest may be given. -/
  | error
  deriving DecidableEq, Repr

/-- Why a command is rejected: codes 1 to 5 of rule R141. -/
inductive Cause where
  /-- Codes 1 to 3: the command word is illegal (rule R65). -/
  | illegal (why : Illegal)
  /-- Code 4: ABSORB or FINAL in SQUEEZING, or SQUEEZE in ABSORBING. -/
  | wrongPhase
  /-- Code 5: a legal ABSORB, FINAL or SQUEEZE in ERROR. -/
  | errorPhase
  deriving DecidableEq, Repr

/-- `REASON` (rule R28). Values 6 to 255, "never held", have no constructor (entry U6, log 13). -/
inductive Reason where
  /-- Code 0: no rejection since the last reset or accepted INIT. -/
  | none
  /-- The most recent rejection. -/
  | rejected (c : Cause)
  deriving DecidableEq, Repr

/-- The command receive state (rule R31). The counts that rule names are the lengths of the byte strings held. -/
inductive Recv where
  /-- Waiting for a command word of which the bytes `got` have arrived. -/
  | word (got : List Byte)
  /-- The command word has arrived; its payload is arriving in the staging buffer, or is complete there. -/
  | payload (word : Word32)
  /-- The command is complete and these response bytes have not drained yet. -/
  | respond (pending : List Byte)
  deriving DecidableEq, Repr

/-- The permutation core's working state (rule R32): a round counter, theta's `C` and `D`, the rho/pi pivot of rule
R86, the row chi saves (rule R87), and the state under permutation (rule R91). No response and no command observes it;
its contents are free after reset and between permutations (entry U2, log 5). -/
structure CoreWork where
  round : Fin 24
  colParity : FiveLanes
  colEffect : FiveLanes
  pivot : Lane
  row : FiveLanes
  work : Lanes
  deriving DecidableEq, Repr

/-- What the outside world does at one step (rules R160, R165; log 2). -/
inductive HostAct where
  /-- The host takes a response byte if one is offered. -/
  | go
  /-- The host leaves the response port undrained. -/
  | hold
  /-- The host offers one more byte on the command port. -/
  | offer (b : Byte)
  /-- Reset arrives. -/
  | reset
  deriving DecidableEq, Repr

/-- One engine and its two ports. -/
structure State where
  /-- The KeccakState `A[0..24]` (rule R21). -/
  lanes : Lanes
  /-- `PHASE` (rule R27). -/
  phase : Phase
  /-- `REASON` (rule R28). -/
  reason : Reason
  /-- The payload staging buffer: the payload bytes of the current command received so far (rule R30, log 4). -/
  staging : List Byte
  /-- The command receive state (rule R31). -/
  recv : Recv
  /-- The permutation core's working state (rule R32). -/
  core : CoreWork
  /-- The model's own counter: how many free values of `Config` have been used (log 5). -/
  freeCtr : Nat
  /-- The command port: bytes the host has offered and the engine has not taken, oldest first (rules R40, R165). -/
  cmdPort : List Byte
  /-- The response port: bytes the host has taken so far, oldest first (rules R40, R66). -/
  rspPort : List Byte
  /-- What the outside world does next, one act a step; after the last one the host drains every response byte as soon
  as it is offered, offers nothing more, and no reset arrives (log 2). -/
  host : List HostAct
  deriving DecidableEq, Repr

/-- Why the machine would stop with a fault. It has no constructor: "The permutation core and the sponge function
raise no exception" (rule R140), a rejection is a next state (rule R143), and an engine that waits keeps its state
(rules R155, R165, R166; log 3). -/
inductive Fault where
  deriving DecidableEq, Repr

/-- Why the model would give an instruction no meaning. -/
inductive Refusal where
  /-- Raised only by an arm of `exec` whose instruction has no meaning yet (none is left). Safe: the model stops where
  the engine goes on. -/
  | notModelled (mnemonic : String)
  deriving DecidableEq, Repr

/-- All 1600 bits zero (rule R34). -/
def zeroLanes : Lanes := Vector.replicate 25 0

/-- The core's working state in the reset state. The spec leaves it unspecified; DESIGN CHOICE, unsafe (log 5). -/
def CoreWork.atReset : CoreWork :=
  { round := 0, colParity := Vector.replicate 5 0, colEffect := Vector.replicate 5 0, pivot := 0,
    row := Vector.replicate 5 0, work := zeroLanes }

/-- The machine right after reset (rules R34, R160, R162), with nothing on either port. -/
def State.reset : State :=
  { lanes := zeroLanes, phase := .absorbing, reason := .none, staging := [], recv := .word [],
    core := CoreWork.atReset, freeCtr := 0, cmdPort := [], rspPort := [], host := [] }

end Sys2Proof.Machine
end

