-- ==== Sys2Proof/Machine/Flags.lean ====
section
/-! DEFINITION. The engine's status: the values of `PHASE` and `REASON` (rules R27, R28, R141) and the response word
that reports them (rule R67). The engine has no arithmetic flags (rule R26). -/

namespace Sys2Proof.Machine

/-- The value of `PHASE` (rule R27). -/
def Phase.value : Phase → BitVec 2
  | .absorbing => 0
  | .squeezing => 1
  | .error => 2

/-- The reason code of a rejection (rule R141). -/
def Cause.code : Cause → Byte
  | .illegal .reservedOpcode => 1
  | .illegal .reservedBits => 2
  | .illegal .badLength => 3
  | .wrongPhase => 4
  | .errorPhase => 5

/-- The value of `REASON` (rules R28, R141). -/
def Reason.value : Reason → Byte
  | .none => 0
  | .rejected c => c.code

/-- The response word `zext_32(REASON ‖ 0b00000 ‖ PHASE ‖ REJ)` (rule R67). -/
def responseWord (rej : Bool) (phase : Phase) (reason : Reason) : Word32 :=
  (reason.value ++ (0 : BitVec 5) ++ phase.value ++ BitVec.ofBool rej).setWidth 32

end Sys2Proof.Machine
end

