-- ==== Sys2Proof/Machine/Bytes.lean ====
section
/-! DEFINITION. The two views of the KeccakState: 200 bytes, little-endian in each lane (rule R41), and the 1600-bit
vector of the core's port (rule R42). -/

namespace Sys2Proof.Machine

/-- Byte `b` of a lane, bits `[8b+7 : 8b]` (rule R41). -/
def laneByte (v : Lane) (b : Nat) : Byte := v.extractLsb' (8 * b) 8

/-- Byte `k` of the state: byte `k mod 8` of lane `k div 8` (rule R41). -/
def stateByte (A : Lanes) (k : Fin 200) : Byte := laneByte A[k.val / 8] (k.val % 8)

/-- Lane `w` of `lanes_from_bytes(P)`: bytes `P[8w .. 8w+7]`, the first in the least significant place (rule R41). -/
def laneOfBytes (P : List Byte) (w : Nat) : Lane :=
  let b (i : Nat) : Lane := (P.getD (8 * w + i) 0).setWidth 64 <<< (8 * i)
  b 0 ||| b 1 ||| b 2 ||| b 3 ||| b 4 ||| b 5 ||| b 6 ||| b 7

/-- `lanes_from_bytes(P)` for `|P| = 8n` (rules R14, R41). -/
def lanesFromBytes (n : Nat) (P : List Byte) : Vector Lane n := Vector.ofFn fun w => laneOfBytes P w.val

/-- `bytes_from_lanes(L)` (rules R14, R41). -/
def bytesFromLanes (L : List Lane) : List Byte := L.flatMap fun v => (List.range 8).map (laneByte v)

/-- The 1600-bit vector `S` at the core's port: lane `i` is `S[64i+63 : 64i]` (rule R42). -/
def flatten (A : Lanes) : BitVec 1600 := BitVec.ofFnLE fun j => A[j.val / 64].getLsbD (j.val % 64)

/-- The lanes of a 1600-bit vector (rule R42). -/
def unflatten (S : BitVec 1600) : Lanes := Vector.ofFn fun i => S.extractLsb' (64 * i.val) 64

end Sys2Proof.Machine
end

