-- ==== Sys2Proof/Machine/Keccak.lean ====
section
/-! DEFINITION. The permutation core's function, Keccak-f[1600] (40_keccak_permutation.md, rules R80 to R91). The
tables, the theta and pi formulas and the order of the round constants are the spec's passages from general knowledge
(GK1 to GK9, log 11). -/

namespace Sys2Proof.Machine

/-! ### Indexing and rotation -/

/-- `A[x, y]` = `A[x + 5y]` (rules R13, R80). -/
def laneAt (A : Lanes) (x y : Fin 5) : Lane := A[x.val + 5 * y.val]

/-- The state whose lane `[x, y]` is `f x y`: lane `i` has column `i mod 5` and row `i div 5` (rule R80). -/
def ofColumnRow (f : Fin 5 → Fin 5 → Lane) : Lanes :=
  Vector.ofFn fun i => f ⟨i.val % 5, by omega⟩ ⟨i.val / 5, by omega⟩

/-- Rotation left by `0 ≤ n ≤ 63` (rule R81). -/
def rotl64 (a : Lane) (n : Nat) : Lane := if n = 0 then a else (a <<< n) ||| (a >>> (64 - n))

/-! ### Tables -/

/-- The rho offsets by lane index (rule R84). -/
def RHO : Vector Nat 25 :=
  #v[0, 1, 62, 28, 27, 36, 44, 6, 55, 20, 3, 10, 43, 25, 39, 41, 45, 15, 21, 8, 18, 2, 61, 56, 14]

/-- Where pi moves source lane `i` (rule R85). -/
def PI_DEST : Vector (Fin 25) 25 :=
  #v[0, 10, 20, 5, 15, 16, 1, 11, 21, 6, 7, 17, 2, 12, 22, 23, 8, 18, 3, 13, 14, 24, 9, 19, 4]

/-- Which lane pi moves to destination lane `i` (rule R85). -/
def PI_SRC : Vector (Fin 25) 25 :=
  #v[0, 6, 12, 18, 24, 3, 9, 10, 16, 22, 1, 7, 13, 19, 20, 4, 5, 11, 17, 23, 2, 8, 14, 15, 21]

/-- The position table of the in-place rho/pi loop (rule R86). -/
def PILN : Vector (Fin 25) 24 :=
  #v[10, 7, 11, 17, 18, 3, 5, 16, 8, 21, 24, 4, 15, 23, 19, 13, 12, 2, 20, 14, 22, 9, 6, 1]

/-- The rotation table of the in-place rho/pi loop (rule R86). -/
def ROTC : Vector Nat 24 :=
  #v[1, 3, 6, 10, 15, 21, 28, 36, 45, 55, 2, 14, 27, 41, 56, 8, 25, 43, 62, 18, 39, 61, 20, 44]

/-- The table of rule R89 as it is printed: row `k` holds the constants of rounds `k`, `k + 8` and `k + 16`. -/
def rcRows : Vector (Lane × Lane × Lane) 8 :=
  #v[(0x0000000000000001, 0x000000000000008A, 0x8000000000008002),
     (0x0000000000008082, 0x0000000000000088, 0x8000000000000080),
     (0x800000000000808A, 0x0000000080008009, 0x000000000000800A),
     (0x8000000080008000, 0x000000008000000A, 0x800000008000000A),
     (0x000000000000808B, 0x000000008000808B, 0x8000000080008081),
     (0x0000000080000001, 0x800000000000008B, 0x8000000000008080),
     (0x8000000080008081, 0x8000000000008089, 0x0000000080000001),
     (0x8000000000008009, 0x8000000000008003, 0x8000000080008008)]

/-- The round constants by round: the three columns of the table, one after another (rule R89). -/
def RC : Vector Lane 24 :=
  rcRows.map (fun row => row.1) ++ rcRows.map (fun row => row.2.1) ++ rcRows.map (fun row => row.2.2)

/-! ### The step mappings -/

/-- Theta's column parities `C[x]` (rule R83). -/
def columnParity (A : Lanes) : FiveLanes :=
  Vector.ofFn fun x => laneAt A x 0 ^^^ laneAt A x 1 ^^^ laneAt A x 2 ^^^ laneAt A x 3 ^^^ laneAt A x 4

/-- Theta's effect `D[x]` on column `x` (rule R83). -/
def thetaEffect (C : FiveLanes) : FiveLanes := Vector.ofFn fun x => C[x - 1] ^^^ rotl64 C[x + 1] 1

/-- XOR `D[x]` into every lane of column `x` (rule R83). -/
def addToColumns (A : Lanes) (D : FiveLanes) : Lanes := ofColumnRow fun x y => laneAt A x y ^^^ D[x]

/-- THETA (rule R83). -/
def theta (A : Lanes) : Lanes := addToColumns A (thetaEffect (columnParity A))

/-- RHO (rule R84). -/
def rho (A : Lanes) : Lanes := Vector.ofFn fun i => rotl64 A[i] RHO[i]

/-- PI: `A'[x, y] = A[(x + 3y) mod 5, x]` (rule R85). -/
def pi (A : Lanes) : Lanes := ofColumnRow fun x y => laneAt A (x + 3 * y) x

/-- CHI (rule R87). -/
def chi (A : Lanes) : Lanes :=
  ofColumnRow fun x y => laneAt A x y ^^^ (~~~ laneAt A (x + 1) y &&& laneAt A (x + 2) y)

/-- IOTA of round `r` (rule R88). -/
def iota (A : Lanes) (r : Fin 24) : Lanes := A.set 0 (A[0] ^^^ RC[r])

/-- One round (rule R82). -/
def keccakRound (A : Lanes) (r : Fin 24) : Lanes := iota (chi (pi (rho (theta A)))) r

/-- Keccak-f[1600]: rounds 0 to 23 in increasing order (rule R82). -/
def keccakF (A : Lanes) : Lanes := (List.finRange 24).foldl keccakRound A

/-- The core's function at its port, `S_out` from `S_in` (rule R91). -/
def corePort (S : BitVec 1600) : BitVec 1600 := flatten (keccakF (unflatten S))

end Sys2Proof.Machine
end

