-- ==== Sys2Proof/Machine/Operands.lean ====
section
/-! DEFINITION. What the commands make of their payload bytes: a message block as it stands, a tail by the SHA3
padding (rules R63, R112, R113). -/

namespace Sys2Proof.Machine

/-- `DOMAIN_BYTE` (rule R7). -/
abbrev DOMAIN_BYTE : Byte := 0x06

/-- `FINAL_BIT_BYTE` (rule R7). -/
abbrev FINAL_BIT_BYTE : Byte := 0x80

/-- `pad(T)` for `0 ≤ |T| ≤ 135`: the tail in a 136-byte buffer of zeros, the domain byte set after it, then the last
byte ORed with the final bit, in that order (rule R113). -/
def pad (T : List Byte) : List Byte :=
  let buffer := T ++ List.replicate (136 - T.length) 0
  let marked := buffer.set T.length DOMAIN_BYTE
  marked.set 135 (marked.getD 135 0 ||| FINAL_BIT_BYTE)

/-- XOR a 136-byte block into the rate lanes 0 to 16, word-wise; the capacity lanes 17 to 24 stay (rules R22, R111,
R112). -/
def xorBlock (A : Lanes) (P : List Byte) : Lanes :=
  Vector.ofFn fun i => if i.val < 17 then A[i] ^^^ laneOfBytes P i.val else A[i]

end Sys2Proof.Machine
end

