-- ==== Sys2Proof/Machine/Sponge.lean ====
section
/-! DEFINITION. The function the source specifies, `sha3_256` (rules R110 to R114), and its expansion into commands,
the pseudo-instruction `SHA3_256` (rule R70). -/

namespace Sys2Proof.Machine

/-- `absorb(A, P)` for a 136-byte block (rule R112). -/
def absorb (A : Lanes) (P : List Byte) : Lanes := keccakF (xorBlock A P)

/-- `squeeze(A)`: lanes 0 to 3 as 32 bytes, low byte first (rule R114). -/
def squeeze (A : Lanes) : List Byte := bytesFromLanes [A[0], A[1], A[2], A[3]]

/-- Absorb the first `k` full blocks of `M` (the loop of rule R110). -/
def absorbBlocks : Nat → Lanes → List Byte → Lanes
  | 0, A, _ => A
  | k + 1, A, M => absorbBlocks k (absorb A (M.take 136)) (M.drop 136)

/-- How many full blocks a message has: `k = |M| div 136` (rules R70, R119). -/
def fullBlocks (M : List Byte) : Nat := M.length / 136

/-- The tail of a message, the bytes after its full blocks (rule R110). -/
def tailOf (M : List Byte) : List Byte := M.drop (136 * fullBlocks M)

/-- The state after a message's full blocks and its padded tail, from the state `A` (rule R110). -/
def absorbMessage (A : Lanes) (M : List Byte) : Lanes :=
  absorb (absorbBlocks (fullBlocks M) A M) (pad (tailOf M))

/-- `sha3_256(M)` (rule R110). -/
def sha3_256 (M : List Byte) : List Byte := squeeze (absorbMessage zeroLanes M)

/-- Block `b` of a message, `M[136b .. 136b+136)` (rule R70). -/
def blockOf (M : List Byte) (b : Nat) : List Byte := (M.drop (136 * b)).take 136

/-- The expansion of the pseudo-instruction `SHA3_256 M` (rule R70). -/
def expandSha3 (M : List Byte) : List Instr :=
  .init :: ((List.range (fullBlocks M)).map fun b => .absorb (blockOf M b)) ++ [.final (tailOf M), .squeeze]

end Sys2Proof.Machine
end

