-- ==== Sys2Proof/Machine/Ops.lean ====
section
/-! DEFINITION. The named operations on the engine's state that the commands and the command port share: sending a
response, rejecting a command (the engine's one exception) and leaving ERROR, running the core, moving a byte across
each port, and reset. -/

namespace Sys2Proof.Machine

/-! ### The permutation core -/

/-- The core's working state at the `n`-th time the spec leaves it open (entry U2, log 5). The values depend on the
engine's own counter alone, so engines with equal counters get equal ones: the model's choice (log 16). -/
def freeCoreWork (n : Nat) : CoreWork :=
  { round := Config.freeRound n
    colParity := Vector.ofFn fun i => Config.freeLane n i.val
    colEffect := Vector.ofFn fun i => Config.freeLane n (5 + i.val)
    pivot := Config.freeLane n 10
    row := Vector.ofFn fun i => Config.freeLane n (11 + i.val)
    work := Vector.ofFn fun i => Config.freeLane n (16 + i.val) }

/-- The core's working state becomes whatever it is (rules R32, R160; entry U2). -/
def State.freeCore (s : State) : State := { s with core := freeCoreWork s.freeCtr, freeCtr := s.freeCtr + 1 }

/-- XOR a padded or message block into the rate and run one permutation, all at once (rules R46, R91, R112). -/
def State.absorbBlock (P : List Byte) (s : State) : State := { s.freeCore with lanes := absorb s.lanes P }

/-! ### Responses -/

/-- `SendBytes`: the command is complete, its payload is used or discarded, and its response frame waits to drain: the
response word of the state as it now is, then `digest` (rules R15, R30, R66, R67). -/
def State.sendResponse (rej : Bool) (digest : List Byte) (s : State) : State :=
  { s with staging := [], recv := .respond (le32Bytes (responseWord rej s.phase s.reason) ++ digest) }

/-- The response of an accepted command. -/
def State.accept (s : State) : State := s.sendResponse false []

/-! ### The exception: rejection, and the way out of it -/

/-- `raise Reject(code)`: `PHASE` to ERROR, `REASON` to the code, lanes unchanged, payload discarded, response
`0x00000005 | (code << 8)`, no digest (rule R143). -/
def State.reject (c : Cause) (s : State) : State :=
  State.sendResponse true [] { s with phase := .error, reason := .rejected c }

/-- All lanes zero, ABSORBING, no reason: what INIT does, the only command that leaves ERROR (rules R115, R145). -/
def State.startMessage (s : State) : State := { s with lanes := zeroLanes, phase := .absorbing, reason := .none }

/-- The phase checks of rule R142 for a command other than INIT that runs in phase `want`: ERROR_PHASE before
WRONG_PHASE. -/
def phaseCause (want : Phase) (s : State) : Option Cause :=
  if s.phase = .error then some .errorPhase
  else if s.phase ≠ want then some .wrongPhase
  else none

/-- The checks of rule R142 that a command's meaning makes, in their order, and then its effect: the length, then the
phase. -/
def guarded (lengthOk : Bool) (want : Phase) (effect : State → State) (s : State) : State :=
  if lengthOk then
    match phaseCause want s with
    | some c => s.reject c
    | none => effect s
  else s.reject (.illegal .badLength)

/-! ### The command port -/

/-- Four bytes make the command word; the payload is awaited next, and none of it has arrived (rules R31, R60, R64). -/
def recvOfWordBytes (got : List Byte) : Recv :=
  match got with
  | [b0, b1, b2, b3] => .payload (le32 b0 b1 b2 b3)
  | _ => .word got

/-- Take one byte of a command word, if the host offers one (rules R15, R64, R165). -/
def State.takeWordByte (got : List Byte) (s : State) : State :=
  match s.cmdPort with
  | [] => s
  | b :: rest => { s with cmdPort := rest, staging := [], recv := recvOfWordBytes (got ++ [b]) }

/-- Take one payload byte into the staging buffer, if the host offers one (rules R30, R64, R167). -/
def State.takePayloadByte (s : State) : State :=
  match s.cmdPort with
  | [] => s
  | b :: rest => { s with cmdPort := rest, staging := s.staging ++ [b] }

/-! ### The response port -/

/-- The host takes one response byte; after the last one the engine waits for a command word (rules R31, R165). -/
def State.drainByte (pending : List Byte) (s : State) : State :=
  match pending with
  | [] => { s with recv := .word [] }
  | [b] => { s with rspPort := s.rspPort ++ [b], recv := .word [] }
  | b :: more => { s with rspPort := s.rspPort ++ [b], recv := .respond more }

/-! ### Reset -/

/-- Reset: the values of rule R34; a partial frame is forgotten, unsent response bytes are dropped, no response is
sent, and what the host still offers stays offered (rules R160, R161, log 15). -/
def State.resetEvent (s : State) : State :=
  { s.freeCore with
    lanes := zeroLanes, phase := .absorbing, reason := .none, staging := [], recv := .word [] }

end Sys2Proof.Machine
end

