-- ==== Sys2Proof/Machine/Commands.lean ====
section
/-! DEFINITION. The meanings of the four commands (41_sponge_commands.md, rules R115 to R118), each with the checks of
rule R142 that concern it. A rejected command takes the rejection of rule R143, which is a next state. -/

namespace Sys2Proof.Machine

/-- INIT: accepted in every phase (rule R115). -/
def execInit (s : State) : Host.Outcome State Fault Refusal := .next s.startMessage.accept

/-- ABSORB of a message block: 136 bytes, in ABSORBING (rule R116). -/
def execAbsorb (block : List Byte) (s : State) : Host.Outcome State Fault Refusal :=
  .next (guarded (block.length == 136) .absorbing (fun s => (s.absorbBlock block).accept) s)

/-- FINAL of a message tail: 0 to 135 bytes, in ABSORBING; `PHASE` becomes SQUEEZING (rule R117). -/
def execFinal (tail : List Byte) (s : State) : Host.Outcome State Fault Refusal :=
  .next (guarded (tail.length ≤ 135) .absorbing
    (fun s => State.accept { s.absorbBlock (pad tail) with phase := .squeezing }) s)

/-- SQUEEZE: in SQUEEZING; the response word and the digest, no state changed (rule R118). -/
def execSqueeze (s : State) : Host.Outcome State Fault Refusal :=
  .next (guarded true .squeezing (fun s => s.sendResponse false (squeeze s.lanes)) s)

end Sys2Proof.Machine
end

