-- ==== Sys2Proof/Machine/Serve.lean ====
section
/-! DEFINITION. The engine's command loop (rule R64), one move a step: take one byte of the command word or of the
payload, or check and execute the complete frame, or let one response byte drain. An engine that cannot move keeps its
state (rules R155, R165, R166; log 3). -/

namespace Sys2Proof.Machine

/-- Check and execute a complete frame (rules R64, R142): a legal word's command, or the rejection of an illegal
word. -/
def serveFrame (word : Word32) (s : State) : Host.Outcome State Fault Refusal :=
  match decodeFrame word s.staging with
  | .ok i => exec i s
  | .error why => .next (s.reject (.illegal why))

/-- One move of the engine; `ready` says whether the host takes a response byte if one is offered. No command byte is
taken before the response has drained (rules R48, R64, R165). -/
def engineMove (ready : Bool) (s : State) : Host.Outcome State Fault Refusal :=
  match s.recv with
  | .word got => .next (s.takeWordByte got)
  | .payload word =>
    if s.staging.length < payloadLength word then .next s.takePayloadByte else serveFrame word s
  | .respond pending => .next (if ready then s.drainByte pending else s)

/-- One step: the outside world's next act, with the engine's move where the act leaves it one (rules R160, R165;
log 2). -/
def serve (s : State) : Host.Outcome State Fault Refusal :=
  match s.host with
  | [] => engineMove true s
  | .go :: acts => engineMove true { s with host := acts }
  | .hold :: acts => engineMove false { s with host := acts }
  | .offer b :: acts => .next { s with host := acts, cmdPort := s.cmdPort ++ [b] }
  | .reset :: acts => .next (State.resetEvent { s with host := acts })

/-- The frame a row of the opcode table stands for, complete in the receive state and the staging buffer, with nothing
else for the outside world to do first (log 9). -/
def State.stageFrame (s : State) (nbits w : Nat) : State :=
  match takeFrame (tableBytes nbits w) with
  | some (word, payload, _) => { s with recv := .payload word, staging := payload, host := [] }
  | none => s

end Sys2Proof.Machine
end

