-- ==== Sys2Proof/Machine/Step.lean ====
section
/-! DEFINITION. One step of the machine, and where its next command is staged. -/

namespace Sys2Proof.Machine

/-- One step. -/
def step : State → Host.Outcome State Fault Refusal := serve

/-- The state whose very next step runs the instruction of an opcode-table row: its frame has arrived (log 9). -/
def State.withFetchWord (s : State) (nbits w : Nat) : State := s.stageFrame nbits w

end Sys2Proof.Machine
end

