-- ==== Sys2Proof/Machine/Assembler.lean ====
section
/-! DEFINITION. The textual syntax of the commands (rule R69) and the pseudo-instruction (rule R70): a line of text to
the bytes of its frames. The step does not read this file. What rule R69 leaves open (blank lines, the case of a hex
digit, a raw word without `0x`) is log 14. -/

namespace Sys2Proof.Machine

/-- The value of a hex digit. -/
def hexDigit (c : Char) : Option Nat :=
  let n := c.toNat
  if 48 ≤ n ∧ n ≤ 57 then some (n - 48)
  else if 65 ≤ n ∧ n ≤ 70 then some (n - 55)
  else if 97 ≤ n ∧ n ≤ 102 then some (n - 87)
  else none

/-- Hex digits as bytes, byte 0 first, two digits a byte (rule R16). -/
def hexBytes : List Char → Option (List Byte)
  | [] => some []
  | [_] => none
  | a :: b :: rest =>
    match hexDigit a, hexDigit b, hexBytes rest with
    | some hi, some lo, some bytes => some (BitVec.ofNat 8 (16 * hi + lo) :: bytes)
    | _, _, _ => none

/-- The hex digit of a value below 16, in lower case. -/
def hexChar (n : Nat) : Char := if n < 10 then Char.ofNat (48 + n) else Char.ofNat (87 + n)

/-- A byte string as hex digits, byte 0 first, two digits a byte (rule R16). -/
def hexText (bytes : List Byte) : List Char :=
  bytes.flatMap fun b => [hexChar (b.toNat / 16), hexChar (b.toNat % 16)]

/-- A hex operand: digits, or two double quotes for the empty byte string (rule R69). -/
def hexOperand (token : List Char) : Option (List Byte) :=
  if token = [Char.ofNat 34, Char.ofNat 34] then some [] else hexBytes token

/-- A raw command word: eight hex digits, most significant first (rules R16, R69). -/
def hexWord (token : List Char) : Option Word32 :=
  match hexBytes (if token.take 2 = ['0', 'x'] then token.drop 2 else token) with
  | some [b3, b2, b1, b0] => some (le32 b0 b1 b2 b3)
  | _ => none

/-- The line up to its comment (rule R69). -/
def stripComment (line : List Char) : List Char := line.takeWhile (· ≠ ';')

/-- The words of a line between spaces and tabs, given the letters of the word being read. -/
def tokensFrom (word : List Char) : List Char → List (List Char)
  | [] => if word.isEmpty then [] else [word]
  | c :: rest =>
    if c = ' ' ∨ c = '\t' then
      if word.isEmpty then tokensFrom [] rest else word :: tokensFrom [] rest
    else tokensFrom (word ++ [c]) rest

/-- What a line of text says (rules R69, R70). -/
inductive AsmLine where
  /-- Nothing but space or a comment. -/
  | blank
  /-- One of the four commands. -/
  | command (i : Instr)
  /-- `.word`: any raw command word and payload. -/
  | raw (word : Word32) (payload : List Byte)
  /-- The pseudo-instruction `SHA3_256`. -/
  | sha3 (message : List Byte)
  deriving DecidableEq, Repr

/-- A command whose operand has a length that rule R69 allows. -/
def checkedCommand (i : Instr) : Option AsmLine := if i.wf then some (.command i) else none

/-- Read a line; `none` where it is none of the forms of rule R69. -/
def parseLine (line : List Char) : Option AsmLine :=
  match tokensFrom [] (stripComment line) with
  | [] => some .blank
  | [m] =>
    if m = "INIT".toList then some (.command .init)
    else if m = "SQUEEZE".toList then some (.command .squeeze)
    else none
  | [m, operand] =>
    if m = "ABSORB".toList then (hexOperand operand).bind fun block => checkedCommand (.absorb block)
    else if m = "FINAL".toList then (hexOperand operand).bind fun tail => checkedCommand (.final tail)
    else if m = "SHA3_256".toList then (hexOperand operand).map .sha3
    else if m = ".word".toList then (hexWord operand).map fun w => .raw w []
    else none
  | [m, operand, payload] =>
    if m = ".word".toList then
      (hexWord operand).bind fun w => (hexOperand payload).map fun bytes => .raw w bytes
    else none
  | _ => none

/-- The bytes a line puts on the command port (rules R69, R70). -/
def AsmLine.bytes : AsmLine → List Byte
  | .blank => []
  | .command i => encode i
  | .raw word payload => le32Bytes word ++ payload
  | .sha3 message => (expandSha3 message).flatMap encode

/-- The command-port bytes of a program text, line after line. -/
def assemble (lines : List (List Char)) : Option (List Byte) :=
  lines.foldr (fun line bytes => (parseLine line).bind fun l => bytes.map fun bs => l.bytes ++ bs) (some [])

end Sys2Proof.Machine
end

