-- ==== Sys2Proof/Machine/CoreUnit.lean ====
section
/-! DEFINITION. One schedule of the permutation core over its working state (rules R32, R86, R91): a round at a time,
rho/pi by the in-place loop, chi row by row with the row saved first. The spec leaves the schedule free (entry U13)
and requires that every one gives `keccak_f`; the engine's step uses `keccakF` alone. -/

namespace Sys2Proof.Machine

/-- One iteration of the in-place rho/pi loop: the state and the pivot (rule R86). -/
def rhoPiStep (At : Lanes × Lane) (k : Fin 24) : Lanes × Lane :=
  (At.1.set PILN[k] (rotl64 At.2 ROTC[k]), At.1[PILN[k]])

/-- The in-place rho/pi loop; the pivot starts as a copy of `A[1]` (rule R86, conflict C1). -/
def rhoPiLoop (A : Lanes) : Lanes × Lane := (List.finRange 24).foldl rhoPiStep (A, A[1])

/-- Row `y` of the state, `A[5y .. 5y+4]` (rule R80). -/
def rowOf (A : Lanes) (y : Fin 5) : FiveLanes := Vector.ofFn fun x => laneAt A x y

/-- Lane `x` of a row after chi, from the row's values before it (rule R87). -/
def chiLane (row : FiveLanes) (x : Fin 5) : Lane := row[x] ^^^ (~~~ row[x + 1] &&& row[x + 2])

/-- Chi on row `y` in place, one lane after another, from the saved row (rule R87). -/
def chiRowInPlace (A : Lanes) (y : Fin 5) : Lanes :=
  (List.finRange 5).foldl (fun B x => B.set (x.val + 5 * y.val) (chiLane (rowOf A y) x)) A

/-- Chi in place, row after row; the second component is the last saved row (rule R87). -/
def chiInPlace (A : Lanes) : Lanes × FiveLanes :=
  (List.finRange 5).foldl (fun At y => (chiRowInPlace At.1 y, rowOf At.1 y)) (A, Vector.replicate 5 0)

/-- The start event: the core takes `S_in` and begins at round 0 (rules R32, R91). -/
def CoreWork.start (w : CoreWork) (A : Lanes) : CoreWork := { w with round := 0, work := A }

/-- One round over the working state (rules R82, R83, R86 to R88). -/
def CoreWork.runRound (w : CoreWork) : CoreWork :=
  let C := columnParity w.work
  let D := thetaEffect C
  let moved := rhoPiLoop (addToColumns w.work D)
  let mixed := chiInPlace moved.1
  { round := w.round + 1, colParity := C, colEffect := D, pivot := moved.2, row := mixed.2,
    work := iota mixed.1 w.round }

/-- `n` rounds over the working state. -/
def CoreWork.runRounds : Nat → CoreWork → CoreWork
  | 0, w => w
  | n + 1, w => (CoreWork.runRounds n w).runRound

/-- One whole permutation over the working state, from whatever it held before (rules R32, R91). -/
def CoreWork.run (w : CoreWork) (A : Lanes) : CoreWork := CoreWork.runRounds 24 (w.start A)

end Sys2Proof.Machine
end

