-- ==== Sys2Proof/Machine/Platform.lean ====
section
/-! DEFINITION. A platform of `N_INSTANCES` engines, each with its own ports and state (rules R10, R33, R152; log 7). Their free core working states may
coincide (log 16). -/

namespace Sys2Proof.Machine

/-- The engines of a platform. -/
structure Platform where
  engines : List State
  deriving DecidableEq, Repr

/-- Every engine in its reset state. -/
def Platform.reset : Platform := { engines := List.replicate Config.nInstances State.reset }

/-- Engine `k` makes one step; the others do nothing. -/
def Platform.stepEngine (k : Nat) (p : Platform) : Host.Outcome Platform Fault Refusal :=
  match p.engines[k]? with
  | none => .next p
  | some s =>
    match step s with
    | .next t => .next { engines := p.engines.set k t }
    | .fault f => .fault f
    | .refused r => .refused r

end Sys2Proof.Machine
end

