-- ==== Sys2Proof/Machine/Tables.lean ====
section
/-! DEFINITION. The generating rules the spec gives for its tables (rules R84, R86, R89), each as a function that
computes the table. -/

namespace Sys2Proof.Machine

/-- The walk of rule R84: the coordinates at step `t`, from `(1, 0)` by `(x, y) <- (y, (2x + 3y) mod 5)`. -/
def rhoWalk : Nat → Fin 5 × Fin 5
  | 0 => (1, 0)
  | t + 1 => ((rhoWalk t).2, 2 * (rhoWalk t).1 + 3 * (rhoWalk t).2)

/-- The offset the walk of rule R84 gives at step `t`: `((t+1)(t+2)/2) mod 64`. -/
def triangularOffset (t : Nat) : Nat := (t + 1) * (t + 2) / 2 % 64

/-- The lane index of coordinates (rule R80). -/
def laneIndex (p : Fin 5 × Fin 5) : Nat := p.1.val + 5 * p.2.val

/-- One step of the LFSR with polynomial `x^8 + x^6 + x^5 + x^4 + 1` (rule R89). -/
def lfsrStep (R : BitVec 8) : BitVec 8 := if R.msb then (R <<< 1) ^^^ 0x71 else R <<< 1

/-- The output `rc(t)` of the LFSR, from the register value 1 (rule R89). -/
def lfsrBit (t : Nat) : Bool := (Nat.rec (motive := fun _ => BitVec 8) 1 (fun _ R => lfsrStep R) (t % 255)).getLsbD 0

/-- The round constant that the generating rule of R89 gives for round `r`: bit `2^j − 1` is `rc(j + 7r)` for `j` in
0..6, every other bit 0. -/
def generatedRC (r : Nat) : Lane :=
  (List.range 7).foldl (fun v j => if lfsrBit (j + 7 * r) then v ||| (1 : Lane) <<< (2 ^ j - 1) else v) 0

end Sys2Proof.Machine
end

