-- ==== Sys2Proof/Machine/Timing.lean ====
section
/-! DEFINITION. What the spec says of time (rules R9, R168, R169): how many permutations a command runs, and the two
latency parameters. No value, response or order of the model depends on them; the step does not read this file. -/

namespace Sys2Proof.Machine

/-- The checks of rule R142 accept the command in this state. -/
def acceptedIn (i : Instr) (s : State) : Bool :=
  match i with
  | .init => true
  | .absorb block => block.length == 136 && phaseCause .absorbing s == none
  | .final tail => tail.length ≤ 135 && phaseCause .absorbing s == none
  | .squeeze => phaseCause .squeezing s == none

/-- How many permutations a command runs: one for an accepted ABSORB or FINAL, none for INIT, SQUEEZE and every
rejected command (rule R169). -/
def permutationsRun (i : Instr) (s : State) : Nat :=
  match i with
  | .init => 0
  | .absorb _ => if acceptedIn i s then 1 else 0
  | .final _ => if acceptedIn i s then 1 else 0
  | .squeeze => 0

/-- The engine cycles a command spends in the permutation core (rules R9, R91). -/
def permutationCycles (i : Instr) (s : State) : Nat := permutationsRun i s * Config.permLatency

/-- The bound on the engine cycles from the last payload byte of each of `n` commands to its response word (rules R9,
R169). -/
def cycleBound (n : Nat) : Nat := n * Config.cmdLatency

end Sys2Proof.Machine
end

