-- ==== Sys2Proof/Safety.lean ====
section
/-! DEFINITION. The terms in which claims about runs are stated: runs that never stop, the invariant that every step
keeps, an engine that waits, and states that differ in nothing a command or a response depends on. -/

namespace Sys2Proof.Machine

/-- `n` steps from `s`, stopping at the first fault or refusal. -/
def run (n : Nat) (s : State) : Host.Outcome State Fault Refusal := Host.Core.run core n s

/-- `n` steps from `s` end in a state: no step stopped with a fault or a refusal. -/
def SafeRun (n : Nat) (s : State) : Prop := ∃ t, run n s = .next t

/-- No command is under way and no response is pending: the engine waits for byte 0 of a command word (rule R155). -/
def State.Idle (s : State) : Prop := s.recv = .word []

/-- The frame of `word` has arrived whole: its command is checked and executed next (rule R142). -/
def State.FrameReady (s : State) (word : Word32) : Prop :=
  s.recv = .payload word ∧ s.staging.length = payloadLength word

/-- The engine needs a command byte that the host has not offered (rules R155, R166). -/
def State.Starved (s : State) : Prop :=
  s.cmdPort = [] ∧
    match s.recv with
    | .word _ => True
    | .payload word => s.staging.length < payloadLength word
    | .respond _ => False

/-- The engine moves in this step: the outside world neither offers a byte nor resets. `ready` says whether the host
takes a response byte if one is offered. -/
def State.EngineMoves (s : State) (ready : Bool) : Prop :=
  match s.host with
  | [] => ready = true
  | .go :: _ => ready = true
  | .hold :: _ => ready = false
  | .offer _ :: _ => False
  | .reset :: _ => False

/-- The next step gives the command `i` to `exec`: its frame is complete and the engine moves. -/
def State.Serves (s : State) (i : Instr) : Prop :=
  ∃ word ready, s.recv = .payload word ∧ payloadLength word ≤ s.staging.length ∧
    decodeFrame word s.staging = .ok i ∧ s.EngineMoves ready

/-- The state in which the engine makes its move: the outside world's act of this step is used up. -/
def State.afterAct (s : State) : State := { s with host := s.host.tail }

/-- The response words of rule R68. -/
def responseWords : List Word32 :=
  [0x00000000, 0x00000002, 0x00000105, 0x00000205, 0x00000305, 0x00000405, 0x00000505]

/-- A response frame of the engine: a response word alone, or 0x00000002 and the digest of some message (rules R66,
R68, R120). -/
def LegalResponse (frame : List Byte) : Prop :=
  (∃ word ∈ responseWords, frame = le32Bytes word) ∨ ∃ M, frame = le32Bytes 0x00000002 ++ sha3_256 M

/-- `REASON` is nonzero exactly when `PHASE` is ERROR (rule R28). -/
def State.ReasonMatchesPhase (s : State) : Prop := s.reason ≠ .none ↔ s.phase = .error

/-- The receive state is one that rule R31 describes: fewer than four word bytes, no more payload than announced, and a
pending response that is the rest of a response frame. -/
def State.RecvWellFormed (s : State) : Prop :=
  match s.recv with
  | .word got => got.length < 4
  | .payload word => s.staging.length ≤ payloadLength word
  | .respond pending => pending ≠ [] ∧ ∃ sent, LegalResponse (sent ++ pending)

/-- The lanes are the result of INIT and ABSORBs in ABSORBING, and of INIT, ABSORBs and one FINAL in SQUEEZING (rule
R120). -/
def State.LanesHoldMessage (s : State) : Prop :=
  match s.phase with
  | .absorbing => ∃ k M, M.length = 136 * k ∧ s.lanes = absorbBlocks k zeroLanes M
  | .squeezing => ∃ M, s.lanes = absorbMessage zeroLanes M
  | .error => True

/-- The invariant of the engine (rules R28, R30, R31, R68, R120). -/
structure State.Inv (s : State) : Prop where
  reasonMatchesPhase : s.ReasonMatchesPhase
  stagingFits : s.staging.length ≤ 255
  recvWellFormed : s.RecvWellFormed
  lanesHoldMessage : s.LanesHoldMessage

/-- The states agree on everything but what no command observes: the core's working state, the model's counter of free
values, and the staging buffer while no payload is arriving (rules R30, R32, R122). -/
structure State.AgreesWith (s t : State) : Prop where
  lanes : s.lanes = t.lanes
  phase : s.phase = t.phase
  reason : s.reason = t.reason
  recv : s.recv = t.recv
  staging : ∀ word, s.recv = .payload word → s.staging = t.staging
  cmdPort : s.cmdPort = t.cmdPort
  rspPort : s.rspPort = t.rspPort
  host : s.host = t.host

end Sys2Proof.Machine
end

