-- ==== Sys2Proof/Certificates/Slice0/Obligations.lean ====
section
/-! DEFINITION. What is claimed of the engine. Each docstring names the rules of spec/ that its statement formalises or
rests on. -/

open Sys2Proof Sys2Proof.Machine

/-! ### Encoding -/

/-- R60 to R65: a legal frame decodes to the command it encodes, for every command and every payload its length field
admits, and the bytes after the frame are left. -/
def Obligations.DecodeOfEncodeIsTheCommand : Prop :=
  ∀ (i : Instr) (rest : List Byte), i.WellFormed → decode (encode i ++ rest) = .command i rest

/-- R60 to R65: what decodes to a command is that command's frame, so a command has one frame only. -/
def Obligations.EncodeOfDecodedCommandIsTheFrame : Prop :=
  ∀ (bytes rest : List Byte) (i : Instr),
    decode bytes = .command i rest → i.WellFormed ∧ bytes = encode i ++ rest

/-- R60: a frame is a 4-byte command word, least significant byte first, then `LEN` = `word[15:8]` payload bytes; it is
4 to 259 bytes long. -/
def Obligations.FrameIsWordThenPayload : Prop :=
  (∀ (bytes payload rest : List Byte) (word : Word32),
    takeFrame bytes = some (word, payload, rest) ↔
      bytes = [BitVec.ofNat 8 word.toNat, BitVec.ofNat 8 (word.toNat / 256), BitVec.ofNat 8 (word.toNat / 65536),
          BitVec.ofNat 8 (word.toNat / 16777216)] ++ payload ++ rest ∧
        payload.length = word.toNat / 256 % 256) ∧
  ∀ (bytes payload rest : List Byte) (word : Word32), takeFrame bytes = some (word, payload, rest) →
    4 ≤ bytes.length - rest.length ∧ bytes.length - rest.length ≤ 259

/-- R61, R62: the fields of the command word and the opcode map. Every word is a reserved opcode, or has reserved bits
set, or has a length its opcode does not allow, or is one of the four commands with its payload. -/
def Obligations.EveryCommandWordHasOneMeaning : Prop :=
  ∀ (word : Word32) (payload : List Byte),
    let opc := word.toNat % 256
    let len := word.toNat / 256 % 256
    let rsv := word.toNat / 65536
    decodeFrame word payload =
      if opc = 0 ∨ 5 ≤ opc then .error .reservedOpcode
      else if rsv ≠ 0 then .error .reservedBits
      else if ((opc = 1 ∨ opc = 4) ∧ len ≠ 0) ∨ (opc = 2 ∧ len ≠ 136) ∨ (opc = 3 ∧ 135 < len) then .error .badLength
      else if opc = 1 then .ok .init
      else if opc = 2 then .ok (.absorb payload)
      else if opc = 3 then .ok (.final payload)
      else .ok .squeeze

/-- R62, R69: words of the opcode table written out from their encoding, and words that are rejected. That the payload of
ABSORB and FINAL, to which the opcode table gives no bits, is zero bytes is the model's choice (log 9). -/
def Obligations.OpcodeTableWordsDecode : Prop :=
  decodeTableWord 32 0b00000000000000000000000000000001 = some .init ∧
  decodeTableWord 32 0b00000000000000001000100000000010 = some (.absorb (List.replicate 136 0)) ∧
  decodeTableWord 32 0b00000000000000000000000000000011 = some (.final []) ∧
  decodeTableWord 32 0b00000000000000001000011100000011 = some (.final (List.replicate 135 0)) ∧
  decodeTableWord 32 0b00000000000000000000000000000100 = some .squeeze ∧
  decodeTableWord 32 0b00000000000000001000100000000011 = none ∧
  decodeTableWord 32 0b00000000000000010000000000000001 = none ∧
  decodeTableWord 32 0b00000000000000000000000000000000 = none

/-- R16, R69, R70: the textual syntax. The text of each command line assembles to its frame, `.word` writes any raw word
with or without a payload, a hex operand of the wrong length or a lower-case mnemonic is no line, a comment changes
nothing, and `SHA3_256` writes the frames of its expansion. The model's choices (log 14) are the case of the hex digits
written here, the raw word without `0x`, and two double quotes for the empty message of `SHA3_256`. -/
def Obligations.CommandLinesAssembleToTheirFrames : Prop :=
  (parseLine "INIT".toList).map AsmLine.bytes = some [0x01, 0, 0, 0] ∧
  (parseLine "SQUEEZE".toList).map AsmLine.bytes = some [0x04, 0, 0, 0] ∧
  (parseLine ("FINAL ".toList ++ [Char.ofNat 34, Char.ofNat 34])).map AsmLine.bytes = some [0x03, 0, 0, 0] ∧
  parseLine "init".toList = none ∧
  (∀ line comment : List Char, parseLine (line ++ ';' :: comment) = parseLine line) ∧
  (∀ block : List Byte, block.length = 136 →
    (parseLine ("ABSORB ".toList ++ hexText block)).map AsmLine.bytes = some ([0x02, 0x88, 0, 0] ++ block)) ∧
  (∀ tail : List Byte, tail ≠ [] → tail.length ≤ 135 →
    (parseLine ("FINAL ".toList ++ hexText tail)).map AsmLine.bytes =
      some ([0x03, BitVec.ofNat 8 tail.length, 0, 0] ++ tail)) ∧
  (∀ b0 b1 b2 b3 : Byte, (parseLine (".word ".toList ++ hexText [b3, b2, b1, b0])).map AsmLine.bytes =
    some [b0, b1, b2, b3]) ∧
  (∀ (b0 b1 b2 b3 : Byte) (payload : List Byte), payload ≠ [] →
    (parseLine (".word ".toList ++ hexText [b3, b2, b1, b0] ++ [' '] ++ hexText payload)).map AsmLine.bytes =
      some ([b0, b1, b2, b3] ++ payload)) ∧
  (∀ b0 b1 b2 b3 : Byte, (parseLine (".word 0x".toList ++ hexText [b3, b2, b1, b0])).map AsmLine.bytes =
    some [b0, b1, b2, b3]) ∧
  (∀ (b0 b1 b2 b3 : Byte) (payload : List Byte), payload ≠ [] →
    (parseLine (".word 0x".toList ++ hexText [b3, b2, b1, b0] ++ [' '] ++ hexText payload)).map AsmLine.bytes =
      some ([b0, b1, b2, b3] ++ payload)) ∧
  (∀ block : List Byte, block.length ≠ 136 → parseLine ("ABSORB ".toList ++ hexText block) = none) ∧
  (∀ tail : List Byte, 135 < tail.length → parseLine ("FINAL ".toList ++ hexText tail) = none) ∧
  (∀ message : List Byte, message ≠ [] →
    (parseLine ("SHA3_256 ".toList ++ hexText message)).map AsmLine.bytes =
      some ((expandSha3 message).flatMap encode)) ∧
  (parseLine ("SHA3_256 ".toList ++ [Char.ofNat 34, Char.ofNat 34])).map AsmLine.bytes =
    some ((expandSha3 []).flatMap encode)

/-! ### The step and the ports -/

/-- R64, R142: when the word that has arrived and its payload decode to a command, the step is that command's meaning in
the state whose outside act is used up. -/
def Obligations.StepRunsTheDecodedCommand : Prop :=
  ∀ (s : State) (word : Word32) (ready : Bool) (i : Instr),
    s.FrameReady word → s.EngineMoves ready → decode (le32Bytes word ++ s.staging) = .command i [] →
      i.WellFormed ∧ step s = exec i s.afterAct

/-- A row of the opcode table staged by `withFetchWord` is what the very next step runs (the model's choice, log 9). -/
def Obligations.TableRowRunsNext : Prop :=
  ∀ (s : State) (nbits w : Nat) (i : Instr), decodeTableWord nbits w = some i →
    step (s.withFetchWord nbits w) = exec i (s.withFetchWord nbits w)

/-- R142: the checks of a complete frame and their order. The first check that fails decides the reason code; if none
fails, the command is executed. -/
def Obligations.ChecksAreMadeInOrder : Prop :=
  ∀ (s : State) (word : Word32) (ready : Bool), s.FrameReady word → s.EngineMoves ready →
    let opc := word.toNat % 256
    let len := word.toNat / 256 % 256
    let rsv := word.toNat / 65536
    let code :=
      if opc ∉ [1, 2, 3, 4] then 1
      else if rsv ≠ 0 then 2
      else if (opc ∈ [1, 4] ∧ len ≠ 0) ∨ (opc = 2 ∧ len ≠ 136) ∨ (opc = 3 ∧ len > 135) then 3
      else if opc ≠ 1 ∧ s.phase = .error then 5
      else if opc ∈ [2, 3] ∧ s.phase ≠ .absorbing then 4
      else if opc = 4 ∧ s.phase ≠ .squeezing then 4
      else 0
    (code ≠ 0 → ∃ c : Cause, c.code.toNat = code ∧ step s = .next (s.afterAct.reject c)) ∧
    (code = 0 → ∃ i, decodeFrame word s.staging = .ok i ∧ (Opcode.ofField (BitVec.ofNat 8 opc)).isSome ∧
      acceptedIn i s = true ∧ step s = exec i s.afterAct)

/-- R64: the engine takes the word's four bytes and exactly `LEN` payload bytes whatever `OPC` and `RSV` hold, and
leaves the bytes after them; nothing else changes while it does. That this takes exactly `4 + LEN` steps, one byte a
step, is the model's choice (log 1). -/
def Obligations.FrameArrivesByItsLength : Prop :=
  ∀ (s : State) (word : Word32) (payload rest : List Byte),
    s.Idle → s.host = [] → payload.length = payloadLength word → s.cmdPort = le32Bytes word ++ payload ++ rest →
      run (4 + payload.length) s =
        .next { s with recv := .payload word, staging := payload, cmdPort := rest }

/-- R165: a pending response byte moves only when the host takes it, and no command byte is taken before the response
has drained; a host that does not drain stalls the engine for as long as it does not, with no state changed; a byte the
host offers, a response pending or not, waits behind the bytes offered before and changes nothing else; and in no step
does a byte cross the response port that the host does not take, or is a command byte dropped: the engine takes none, or
it takes the oldest one into the frame. The outside world as one act a step, and that a step in which a byte is offered
changes nothing else, are the model's choice (log 2), as is one byte a step (log 1); that reset keeps the bytes still
offered is its deduction (log 15). -/
def Obligations.PortsAreFlowControlled : Prop :=
  (∀ (s : State) (b : Byte) (more : List Byte), s.recv = .respond (b :: more) →
    (s.EngineMoves false → step s = .next s.afterAct) ∧
    (s.EngineMoves true → step s = .next { s.afterAct with
      rspPort := s.rspPort ++ [b], recv := if more = [] then .word [] else .respond more })) ∧
  (∀ (n : Nat) (s : State) (pending : List Byte) (acts : List HostAct), s.recv = .respond pending →
    s.host = List.replicate n .hold ++ acts → run n s = .next { s with host := acts }) ∧
  (∀ (s : State) (b : Byte) (acts : List HostAct), s.host = .offer b :: acts →
    step s = .next { s with host := acts, cmdPort := s.cmdPort ++ [b] }) ∧
  (∀ (s t : State), step s = .next t →
    t.rspPort = s.rspPort ∨
    ∃ b more, s.recv = .respond (b :: more) ∧ s.EngineMoves true ∧ t.rspPort = s.rspPort ++ [b]) ∧
  (∀ (s t : State), step s = .next t →
    t.cmdPort = s.cmdPort ∨
    (∃ b acts, s.host = .offer b :: acts ∧ t.cmdPort = s.cmdPort ++ [b]) ∨
    (∃ b, s.cmdPort = b :: t.cmdPort ∧
      ((∃ got, s.recv = .word got ∧ t.recv = recvOfWordBytes (got ++ [b])) ∨
       (∃ word, s.recv = .payload word ∧ s.staging.length < payloadLength word ∧ t.recv = .payload word ∧
          t.staging = s.staging ++ [b]))))

/-- R166: an engine that lacks bytes of a frame waits without limit and keeps its state, whatever the host does short of
sending a byte or a reset; the next byte the host sends goes into that frame; and a frame under way is left only when it
is complete or reset arrives. That the step of a waiting engine answers the same state is the model's deduction (log 3);
that offering a byte is one step and taking it the next is its choice (logs 1 and 2). -/
def Obligations.TruncatedFrameWaits : Prop :=
  (∀ (n : Nat) (s : State), s.Starved → (∀ a ∈ s.host, a = .go ∨ a = .hold) →
    run n s = .next { s with host := s.host.drop n }) ∧
  (∀ (s : State) (b : Byte), s.Starved → s.host = [.offer b] →
    ∃ t, run 2 s = .next t ∧ t.cmdPort = [] ∧ t.lanes = s.lanes ∧ t.phase = s.phase ∧ t.reason = s.reason ∧
      t.rspPort = s.rspPort ∧
      ((∃ got, s.recv = .word got ∧ t.recv = recvOfWordBytes (got ++ [b])) ∨
       (∃ word, s.recv = .payload word ∧ t.recv = .payload word ∧ t.staging = s.staging ++ [b]))) ∧
  (∀ (s t : State), s.host.head? ≠ some .reset → step s = .next t →
    (∀ got, s.recv = .word got → t.recv = s.recv ∨ ∃ b, t.recv = recvOfWordBytes (got ++ [b])) ∧
    (∀ word, s.recv = .payload word → s.staging.length < payloadLength word →
      t.recv = s.recv ∧ (t.staging = s.staging ∨ ∃ b, t.staging = s.staging ++ [b])))

/-- R160: reset, at any time, installs the reset values, sends no response and is complete before the engine takes a
byte. -/
def Obligations.ResetInstallsTheResetValues : Prop :=
  ∀ (s : State) (acts : List HostAct), s.host = .reset :: acts →
    ∃ t, step s = .next t ∧ (∀ i : Fin 25, t.lanes[i] = 0) ∧ t.phase.value = 0 ∧ t.reason.value = 0 ∧
      t.recv = .word [] ∧ t.rspPort = s.rspPort

/-- R161: a frame or a response that reset cuts off is forgotten: nothing more of it crosses the response port, and the
next byte the engine takes is byte 0 of a command word. That a byte offered before reset is still offered after it is the
model's deduction (log 15); that reset is one step and the byte is taken in the next is its choice (logs 1 and 2). -/
def Obligations.ResetForgetsTheFrame : Prop :=
  ∀ (s : State) (b : Byte) (rest : List Byte), s.host = [.reset] → s.cmdPort = b :: rest →
    ∃ t, run 2 s = .next t ∧ t.recv = .word [b] ∧ t.cmdPort = rest ∧ t.rspPort = s.rspPort ∧ t.lanes = zeroLanes ∧
      t.phase = .absorbing ∧ t.reason = .none

/-- R34, R162: the values of the reset state. -/
def Obligations.ResetStateHasTheSpecifiedValues : Prop :=
  (∀ i : Fin 25, State.reset.lanes[i] = 0) ∧ State.reset.phase.value = 0 ∧ State.reset.reason.value = 0 ∧
    State.reset.recv = .word []

/-- R34 (its derived sentence): after reset the engine is as after an accepted INIT whose response has drained, but for
that response. Bytes offered and not taken are still offered after both; for reset that is the model's deduction
(log 15). That the four response bytes drain in exactly four steps is the model's choice (logs 1 and 2). -/
def Obligations.AfterResetAsAfterInit : Prop :=
  ∀ (s : State), s.host = [] →
    ∃ t u, exec .init s = .next t ∧ run 4 t = .next u ∧
      u.AgreesWith { s.resetEvent with rspPort := s.rspPort ++ [0, 0, 0, 0] }

/-- R64, R66, R169: the engine takes the word and exactly `LEN` payload bytes whatever `OPC` and `RSV` hold, checks and
executes the frame, and, if the host drains, sends one response of 4 bytes, or of 36 for an accepted SQUEEZE; only then
does it wait for byte 0 of the next command word, which is the byte after the payload. That a step moves one byte or
executes one frame, and so the number of steps, is the model's choice (log 1), as is the host that drains at once (log 2). -/
def Obligations.EveryCommandCompletes : Prop :=
  ∀ (s : State) (word : Word32) (payload rest : List Byte),
    s.Idle → s.host = [] → payload.length = payloadLength word → s.cmdPort = le32Bytes word ++ payload ++ rest →
      ∃ t frame,
        serveFrame word { s with recv := .payload word, staging := payload, cmdPort := rest } = .next t ∧
        t.recv = .respond frame ∧ t.cmdPort = rest ∧
        run (4 + payload.length + 1 + frame.length) s =
          .next { t with recv := .word [], rspPort := s.rspPort ++ frame } ∧
        frame.length = if decodeFrame word payload = .ok .squeeze ∧ s.phase = .squeezing then 36 else 4

/-- R140, R143, R148: no run of the machine stops with a fault or a refusal. That a waiting engine, which the spec calls
stuck (U10, U11, R166), answers the same state, and that nothing stops the machine, is the model's deduction (log 3). -/
def Obligations.EveryRunIsSafe : Prop := ∀ (n : Nat) (s : State), SafeRun n s

/-! ### The commands -/

/-- R115: INIT. Its encoding and rejections, its effect in every phase, and that INIT twice in a row is INIT once. -/
def Obligations.InitStartsAMessageInEveryPhase : Prop :=
  encode .init = [0x01, 0x00, 0x00, 0x00] ∧
  (∀ (word : Word32) (payload : List Byte), word.toNat % 256 = 1 → decodeFrame word payload =
    if word.toNat / 65536 ≠ 0 then .error .reservedBits
    else if word.toNat / 256 % 256 ≠ 0 then .error .badLength else .ok .init) ∧
  ∀ s : State, ∃ t, exec .init s = .next t ∧ (∀ i : Fin 25, t.lanes[i] = 0) ∧ t.phase = .absorbing ∧
    t.reason = .none ∧ t.recv = .respond [0x00, 0x00, 0x00, 0x00] ∧ exec .init t = .next t ∧
    t.core = s.core ∧ t.cmdPort = s.cmdPort ∧ t.rspPort = s.rspPort ∧ t.host = s.host

/-- R116: ABSORB. Its encoding, its rejections with their reasons, and its effect in ABSORBING; the reason register
matches the phase in every state a run reaches (`InvariantIsKept`). -/
def Obligations.AbsorbXorsTheBlockAndPermutes : Prop :=
  (∀ block : List Byte, encode (.absorb block) = [0x02, 0x88, 0x00, 0x00] ++ block) ∧
  (∀ (word : Word32) (payload : List Byte), word.toNat % 256 = 2 → decodeFrame word payload =
    if word.toNat / 65536 ≠ 0 then .error .reservedBits
    else if word.toNat / 256 % 256 ≠ 136 then .error .badLength else .ok (.absorb payload)) ∧
  ∀ (s : State) (block : List Byte), block.length = 136 →
    (s.phase = .squeezing → exec (.absorb block) s = .next (s.reject .wrongPhase)) ∧
    (s.phase = .error → exec (.absorb block) s = .next (s.reject .errorPhase)) ∧
    (s.phase = .absorbing → s.ReasonMatchesPhase →
      ∃ t, exec (.absorb block) s = .next t ∧
        t.lanes = keccakF (Vector.ofFn fun i => if h : i.val < 17 then s.lanes[i] ^^^ (lanesFromBytes 17 block)[i.val]
          else s.lanes[i]) ∧
        t.phase = .absorbing ∧ t.reason = .none ∧ t.recv = .respond [0x00, 0x00, 0x00, 0x00] ∧
        t.cmdPort = s.cmdPort ∧ t.rspPort = s.rspPort ∧ t.host = s.host)

/-- R117: FINAL. Its encoding, its rejections with their reasons, and its effect in ABSORBING for every tail of 0 to 135
bytes; the reason register matches the phase in every state a run reaches (`InvariantIsKept`). -/
def Obligations.FinalPadsTheTailAndPermutes : Prop :=
  (∀ tail : List Byte, tail.length ≤ 135 →
    encode (.final tail) = [0x03, BitVec.ofNat 8 tail.length, 0x00, 0x00] ++ tail) ∧
  (∀ (word : Word32) (payload : List Byte), word.toNat % 256 = 3 → decodeFrame word payload =
    if word.toNat / 65536 ≠ 0 then .error .reservedBits
    else if 135 < word.toNat / 256 % 256 then .error .badLength else .ok (.final payload)) ∧
  ∀ (s : State) (tail : List Byte), tail.length ≤ 135 →
    (s.phase = .squeezing → exec (.final tail) s = .next (s.reject .wrongPhase)) ∧
    (s.phase = .error → exec (.final tail) s = .next (s.reject .errorPhase)) ∧
    (s.phase = .absorbing → s.ReasonMatchesPhase →
      ∃ t, exec (.final tail) s = .next t ∧
        t.lanes = keccakF (Vector.ofFn fun i => if h : i.val < 17 then
            s.lanes[i] ^^^ (lanesFromBytes 17 (pad tail))[i.val] else s.lanes[i]) ∧
        t.phase = .squeezing ∧ t.reason = .none ∧ t.recv = .respond [0x02, 0x00, 0x00, 0x00] ∧
        t.cmdPort = s.cmdPort ∧ t.rspPort = s.rspPort ∧ t.host = s.host)

/-- R118: SQUEEZE. Its encoding, its rejections with their reasons, its answer in SQUEEZING, and that it changes no
state, so that it can be repeated; the reason register matches the phase in every state a run reaches
(`InvariantIsKept`). -/
def Obligations.SqueezeAnswersTheDigest : Prop :=
  encode .squeeze = [0x04, 0x00, 0x00, 0x00] ∧
  (∀ (word : Word32) (payload : List Byte), word.toNat % 256 = 4 → decodeFrame word payload =
    if word.toNat / 65536 ≠ 0 then .error .reservedBits
    else if word.toNat / 256 % 256 ≠ 0 then .error .badLength else .ok .squeeze) ∧
  ∀ s : State,
    (s.phase = .absorbing → exec .squeeze s = .next (s.reject .wrongPhase)) ∧
    (s.phase = .error → exec .squeeze s = .next (s.reject .errorPhase)) ∧
    (s.phase = .squeezing → s.ReasonMatchesPhase →
      ∃ t, exec .squeeze s = .next t ∧
        t.recv = .respond (([0x02, 0x00, 0x00, 0x00] : List Byte) ++ bytesFromLanes [s.lanes[0], s.lanes[1], s.lanes[2], s.lanes[3]]) ∧
        t.lanes = s.lanes ∧ t.phase = s.phase ∧ t.reason = s.reason ∧ t.core = s.core ∧ t.cmdPort = s.cmdPort ∧
        t.rspPort = s.rspPort ∧ t.host = s.host ∧ exec .squeeze t = .next t)

/-- R143, with the codes of R141: the effect of a rejection, and that it changes nothing else. -/
def Obligations.RejectionIsPrecise : Prop :=
  (Cause.code (.illegal .reservedOpcode) = 1 ∧ Cause.code (.illegal .reservedBits) = 2 ∧
    Cause.code (.illegal .badLength) = 3 ∧ Cause.code .wrongPhase = 4 ∧ Cause.code .errorPhase = 5) ∧
  ∀ (s : State) (c : Cause),
    (s.reject c).phase = .error ∧ (s.reject c).reason = .rejected c ∧ (s.reject c).lanes = s.lanes ∧
    (s.reject c).recv = .respond (le32Bytes (0x00000005 ||| (c.code.setWidth 32 <<< 8))) ∧
    (s.reject c).staging = [] ∧ (s.reject c).core = s.core ∧ (s.reject c).cmdPort = s.cmdPort ∧
    (s.reject c).rspPort = s.rspPort ∧ (s.reject c).host = s.host

/-- R46, R47, R143: a command that the checks do not accept is rejected, and every command, accepted or not, leaves the
ports and the outside world alone. -/
def Obligations.CommandsLeaveThePortsAlone : Prop :=
  ∀ (i : Instr) (s : State), ∃ t, exec i s = .next t ∧ t.cmdPort = s.cmdPort ∧ t.rspPort = s.rspPort ∧
    t.host = s.host ∧ (acceptedIn i s = false → ∃ c, t = s.reject c)

/-- R67: the response word of every frame and its fields, after the command's update; `REJ` says whether the checks
accepted the command, and only an accepted SQUEEZE is followed by bytes, 32 of them (R66). -/
def Obligations.ResponseWordReportsTheOutcome : Prop :=
  ∀ (word : Word32) (s t : State), serveFrame word s = .next t →
    ∃ (response : Word32) (digest : List Byte), t.recv = .respond (le32Bytes response ++ digest) ∧
      (response.getLsbD 0 = true ↔ ¬ ∃ i, decodeFrame word s.staging = .ok i ∧ acceptedIn i s = true) ∧
      response.extractLsb' 1 2 = t.phase.value ∧ response.extractLsb' 3 5 = 0 ∧
      response.extractLsb' 8 8 = t.reason.value ∧ response.extractLsb' 16 16 = 0 ∧
      digest.length = if decodeFrame word s.staging = .ok .squeeze ∧ s.phase = .squeezing then 32 else 0

/-! ### Rules about the whole machine -/

/-- R23: the only ways a step changes a lane. -/
def Obligations.OnlyTheseOperationsTouchTheLanes : Prop :=
  ∀ (s t : State), step s = .next t →
    t.lanes = s.lanes ∨
    (s.host.head? = some .reset ∧ t.lanes = zeroLanes) ∨
    (s.Serves .init ∧ t.lanes = zeroLanes) ∨
    (∃ block, s.Serves (.absorb block) ∧ s.phase = .absorbing ∧ t.lanes = keccakF (xorBlock s.lanes block)) ∨
    (∃ tail, s.Serves (.final tail) ∧ s.phase = .absorbing ∧ t.lanes = keccakF (xorBlock s.lanes (pad tail)))

/-- R27: the only writers of `PHASE`, and what each writes. -/
def Obligations.OnlyTheseOperationsWritePhase : Prop :=
  ∀ (s t : State), step s = .next t → t.phase ≠ s.phase →
    (t.phase = .absorbing ∧ (s.host.head? = some .reset ∨ s.Serves .init)) ∨
    (t.phase = .squeezing ∧ s.phase = .absorbing ∧ ∃ tail, s.Serves (.final tail)) ∨
    (t.phase = .error ∧ ∃ c, t = s.afterAct.reject c)

/-- R28: the only writers of `REASON`, and what each writes. -/
def Obligations.OnlyTheseOperationsWriteReason : Prop :=
  ∀ (s t : State), step s = .next t → t.reason ≠ s.reason →
    (t.reason = .none ∧ (s.host.head? = some .reset ∨ s.Serves .init)) ∨
    (∃ c, t = s.afterAct.reject c ∧ t.reason = .rejected c)

/-- R145: ERROR is left only by an accepted INIT or by reset, and either leaves the zero state in ABSORBING with no
reason. -/
def Obligations.OnlyInitOrResetLeavesError : Prop :=
  ∀ (s t : State), s.phase = .error → step s = .next t → t.phase ≠ .error →
    (s.host.head? = some .reset ∨ s.Serves .init) ∧ t.phase = .absorbing ∧ t.reason = .none ∧ t.lanes = zeroLanes

/-- R144: in ERROR every command but INIT is rejected with reason 5, no lane changes except through INIT, and no digest
byte is sent. -/
def Obligations.ErrorAcceptsOnlyInit : Prop :=
  ∀ (i : Instr) (s : State), i.WellFormed → s.phase = .error → i ≠ .init →
    exec i s = .next (s.reject .errorPhase) ∧ (s.reject .errorPhase).lanes = s.lanes ∧
      (s.reject .errorPhase).recv = .respond [0x05, 0x05, 0x00, 0x00]

/-- R28, R30, R31, R68, R120: every step keeps the invariant: the reason matches the phase, the staging buffer is within
its size, the receive state is well formed, every pending response is (the rest of) a response frame that the engine can
send, and the lanes hold the message that the phase says they hold. -/
def Obligations.InvariantIsKept : Prop := ∀ (s t : State), s.Inv → step s = .next t → t.Inv

/-- The reset state has the invariant (R34). -/
def Obligations.ResetHasTheInvariant : Prop := State.reset.Inv

/-- R120: from any state with the invariant, the digest that an accepted SQUEEZE answers is the digest of a message. -/
def Obligations.DigestIsOfAMessage : Prop :=
  ∀ (s : State), s.Inv → s.phase = .squeezing →
    ∃ t M, exec .squeeze s = .next t ∧ t.recv = .respond ([0x02, 0x00, 0x00, 0x00] ++ sha3_256 M)

/-- R30, R32, R122: states that differ only in the core's working state, the free values used, and the staging buffer while
no payload arrives, step to states that differ only there, so no response and no later state depends on them. -/
def Obligations.WorkingStateIsUnobservable : Prop :=
  ∀ (n : Nat) (s t s' : State), s.AgreesWith t → run n s = .next s' →
    ∃ t', run n t = .next t' ∧ s'.AgreesWith t'

/-- R119, R70: from any idle engine whatever its state, the expansion of `SHA3_256 M` is accepted command by command, and
the last response carries `sha3_256(M)`, for every message. -/
def Obligations.ExpansionAnswersSha3OfTheMessage : Prop :=
  ∀ (s : State) (M rest : List Byte), s.Idle → s.host = [] →
    s.cmdPort = (expandSha3 M).flatMap encode ++ rest →
      ∃ n t, run n s = .next t ∧ t.Idle ∧ t.cmdPort = rest ∧ t.phase = .squeezing ∧ t.reason = .none ∧
        t.lanes = absorbMessage zeroLanes M ∧
        t.rspPort = s.rspPort ++ [0x00, 0x00, 0x00, 0x00] ++
          (List.replicate (M.length / 136) [(0x00 : Byte), 0x00, 0x00, 0x00]).flatten ++
          [0x02, 0x00, 0x00, 0x00] ++ [0x02, 0x00, 0x00, 0x00] ++ sha3_256 M

/-- R33, R152: a step of one engine of a platform leaves every other engine as it is, and does to its own engine what
that engine does alone. The rules say that the engines share no state; that a platform is a list of engines of which one
steps at a time, the others as they are meanwhile, is the model's choice (log 7). -/
def Obligations.EnginesShareNothing : Prop :=
  ∀ (p q : Platform) (k : Nat) (s t : State), p.engines[k]? = some s → step s = .next t →
    p.stepEngine k = .next q →
      q.engines[k]? = some t ∧ q.engines.length = p.engines.length ∧ ∀ j, j ≠ k → q.engines[j]? = p.engines[j]?

/-- R163: a message may begin directly after reset, without INIT: from an engine that is idle with the reset values, the
expansion of `SHA3_256 M` without its INIT is accepted and answers the digest of `M`. -/
def Obligations.MessageMayBeginAfterReset : Prop :=
  ∀ (s : State) (M rest : List Byte), s.Idle → s.host = [] → s.lanes = zeroLanes → s.phase = .absorbing →
    s.reason = .none → s.cmdPort = (expandSha3 M).tail.flatMap encode ++ rest →
      ∃ n t, run n s = .next t ∧ t.Idle ∧ t.cmdPort = rest ∧ t.phase = .squeezing ∧
        t.rspPort = s.rspPort ++ (List.replicate (M.length / 136) [(0x00 : Byte), 0x00, 0x00, 0x00]).flatten ++
          [0x02, 0x00, 0x00, 0x00] ++ [0x02, 0x00, 0x00, 0x00] ++ sha3_256 M

/-! ### The sponge -/

/-- R110: `sha3_256` absorbs full blocks while at least 136 bytes remain, then absorbs the padded tail of fewer than 136
bytes, always, and squeezes; that is `floor(|M| / 136) + 1` absorbed blocks, with one permutation each. -/
def Obligations.SpongeIsTheAbsorbLoop : Prop :=
  (∀ (A : Lanes) (M : List Byte), absorbMessage A M =
    if 136 ≤ M.length then absorbMessage (absorb A (M.take 136)) (M.drop 136) else absorb A (pad M)) ∧
  (∀ M : List Byte, sha3_256 M = squeeze (absorbMessage zeroLanes M)) ∧
  (∀ M : List Byte, ∃ blocks : List (List Byte), blocks.length = M.length / 136 + 1 ∧
    (∀ P ∈ blocks, P.length = 136) ∧ ∀ A, absorbMessage A M = blocks.foldl absorb A)

/-- R112: absorbing a block XORs its 17 little-endian words into lanes 0 to 16 and permutes. -/
def Obligations.AbsorbXorsSeventeenWords : Prop :=
  ∀ (A : Lanes) (P : List Byte), P.length = 136 →
    let byte (j : Nat) : Lane := (P.getD j 0).setWidth 64
    absorb A P = keccakF (Vector.ofFn fun i => if i.val < 17 then
      A[i] ^^^ (byte (8 * i.val) ||| byte (8 * i.val + 1) <<< 8 ||| byte (8 * i.val + 2) <<< 16 |||
        byte (8 * i.val + 3) <<< 24 ||| byte (8 * i.val + 4) <<< 32 ||| byte (8 * i.val + 5) <<< 40 |||
        byte (8 * i.val + 6) <<< 48 ||| byte (8 * i.val + 7) <<< 56) else A[i])

/-- R44: absorbing a block word-wise XORs its byte `j` into state byte `j` and leaves the other state bytes. -/
def Obligations.BlockXorIsBytewise : Prop :=
  ∀ (A : Lanes) (P : List Byte) (k : Fin 200), P.length = 136 →
    stateByte (xorBlock A P) k = if k.val < 136 then stateByte A k ^^^ P.getD k.val 0 else stateByte A k

/-- R113: the padded tail of 0 to 135 bytes: its length, the tail unchanged, the domain byte after it, zeros, and the
final bit in the last byte, which is 0x86 when the two fall together. -/
def Obligations.PaddingFillsTheBlock : Prop :=
  ∀ T : List Byte, T.length ≤ 135 →
    (pad T).length = 136 ∧ ∀ j, j < 136 →
      (pad T)[j]? = some (if h : j < T.length then T[j]
        else if j = T.length then (if j = 135 then 0x86 else 0x06)
        else if j = 135 then 0x80 else 0x00)

/-- R114: digest byte `8w + b` is `A[w][8b+7 : 8b]`; the digest is 32 bytes and reads lanes 0 to 3 only. -/
def Obligations.DigestBytesAreTheFirstLanes : Prop :=
  (∀ (A : Lanes), (squeeze A).length = 32) ∧
  (∀ (A : Lanes) (w : Fin 4) (b : Fin 8), (squeeze A)[8 * w.val + b.val]? = some (A[w.val].extractLsb' (8 * b.val) 8)) ∧
  (∀ (A B : Lanes), (∀ i : Fin 4, A[i.val] = B[i.val]) → squeeze A = squeeze B)

/-- R41: byte `k` of the state is bits `[8(k mod 8)+7 : 8(k mod 8)]` of lane `k div 8`; `lanes_from_bytes` and
`bytes_from_lanes` are that map, and invert each other (R14). -/
def Obligations.StateBytesAreLittleEndian : Prop :=
  (∀ (A : Lanes) (k : Fin 200), stateByte A k = A[k.val / 8].extractLsb' (8 * (k.val % 8)) 8) ∧
  (∀ (A : Lanes) (k : Fin 200), (bytesFromLanes A.toList)[k.val]? = some (stateByte A k)) ∧
  (∀ (n : Nat) (L : Vector Lane n), lanesFromBytes n (bytesFromLanes L.toList) = L) ∧
  (∀ (n : Nat) (P : List Byte), P.length = 8 * n → bytesFromLanes (lanesFromBytes n P).toList = P)

/-- R42: in the core's 1600-bit vector, lane `i` is `S[64i+63 : 64i]` and byte `k` is `S[8k+7 : 8k]`; the flattening
loses nothing. -/
def Obligations.FlatteningKeepsLanesAndBytes : Prop :=
  ∀ A : Lanes, (∀ i : Fin 25, (flatten A).extractLsb' (64 * i.val) 64 = A[i]) ∧
    (∀ k : Fin 200, (flatten A).extractLsb' (8 * k.val) 8 = stateByte A k) ∧ unflatten (flatten A) = A ∧
    ∀ S : BitVec 1600, flatten (unflatten S) = S

/-! ### The permutation core -/

/-- R81: `rotl64`, by its formula and bit by bit. -/
def Obligations.RotationMovesBitsLeft : Prop :=
  ∀ (a : Lane) (n : Nat), n ≤ 63 →
    (rotl64 a n).toNat = (if n = 0 then a.toNat else (a.toNat <<< n ||| a.toNat >>> (64 - n)) % 2 ^ 64) ∧
    ∀ j, j < 64 → (rotl64 a n).getLsbD j = a.getLsbD ((j + 64 - n) % 64)

/-- R83: theta, bit by bit: the parity of the column to the left at the same bit, and of the column to the right at the
bit below. -/
def Obligations.ThetaAddsTwoColumnParities : Prop :=
  ∀ (A : Lanes) (x y : Fin 5) (z : Nat), z < 64 →
    let p := fun (x : Fin 5) (z : Nat) =>
      (laneAt A x 0).getLsbD z ^^ (laneAt A x 1).getLsbD z ^^ (laneAt A x 2).getLsbD z ^^ (laneAt A x 3).getLsbD z ^^
        (laneAt A x 4).getLsbD z
    (laneAt (theta A) x y).getLsbD z = ((laneAt A x y).getLsbD z ^^ p (x + 4) z ^^ p (x + 1) ((z + 63) % 64))

/-- R84, R85: rho then pi, bit by bit: lane `[x, y]` moves to `[y, 2x + 3y]`, rotated by its offset. -/
def Obligations.RhoPiMovesAndRotatesLanes : Prop :=
  ∀ (A : Lanes) (x y : Fin 5) (z : Nat), z < 64 →
    (laneAt (pi (rho A)) y (2 * x + 3 * y)).getLsbD z =
      (laneAt A x y).getLsbD ((z + 64 - RHO[x.val + 5 * y.val]) % 64)

/-- R87: chi, bit by bit, from the row's values before the step. -/
def Obligations.ChiMixesEachRow : Prop :=
  ∀ (A : Lanes) (x y : Fin 5) (z : Nat), z < 64 →
    (laneAt (chi A) x y).getLsbD z =
      ((laneAt A x y).getLsbD z ^^ (!(laneAt A (x + 1) y).getLsbD z && (laneAt A (x + 2) y).getLsbD z))

/-- R88: iota XORs the round's constant into lane 0 and changes no other lane. -/
def Obligations.IotaChangesLaneZeroOnly : Prop :=
  ∀ (A : Lanes) (r : Fin 24), (iota A r)[0] = A[0] ^^^ RC[r] ∧ ∀ i : Fin 25, i ≠ 0 → (iota A r)[i] = A[i]

/-- R84, R85, R86, R89: each table is what its generating rule gives. -/
def Obligations.TablesFollowTheirGeneratingRules : Prop :=
  (RHO[0] = 0 ∧ ∀ t : Fin 24, RHO[laneIndex (rhoWalk t.val)]? = some (triangularOffset t.val)) ∧
  (∀ x y : Fin 5, (PI_DEST[x.val + 5 * y.val]).val = y.val + 5 * (2 * x + 3 * y).val ∧
    (PI_SRC[x.val + 5 * y.val]).val = (x + 3 * y).val + 5 * x.val) ∧
  (PILN[0] = PI_DEST[1] ∧ ∀ k : Fin 23, PILN[k.val + 1] = PI_DEST[PILN[k.val]]) ∧
  (ROTC[0] = RHO[1] ∧ ∀ k : Fin 23, ROTC[k.val + 1] = RHO[PILN[k.val]]) ∧
  (∀ k : Fin 24, ROTC[k.val] = triangularOffset k.val) ∧
  (∀ r : Fin 24, RC[r] = generatedRC r.val)

/-- R86: the in-place loop with its scratch pivot is rho then pi, on every state. -/
def Obligations.InPlaceLoopIsRhoThenPi : Prop := ∀ A : Lanes, (rhoPiLoop A).1 = pi (rho A)

/-- R32, R91: the core's schedule over its working state gives `keccak_f` of its input, whatever the working state held
before, and ends ready for round 0 again. -/
def Obligations.CoreScheduleComputesKeccakF : Prop :=
  ∀ (w : CoreWork) (A : Lanes), (w.run A).work = keccakF A ∧ (w.run A).round = 0

/-- R91: the core's function at its 1600-bit port is `keccak_f` on the lanes. -/
def Obligations.CorePortIsKeccakF : Prop := ∀ A : Lanes, corePort (flatten A) = flatten (keccakF A)

/-- R93: Keccak-f[1600] is a bijection on 1600-bit states. -/
def Obligations.KeccakFIsABijection : Prop := Function.Bijective corePort

/-- R94: one round on the zero state, and the first lanes of `keccak_f(0)`. -/
def Obligations.KnownPermutationValues : Prop :=
  ((keccakRound zeroLanes 0)[0] = 1 ∧ ∀ i : Fin 25, i ≠ 0 → (keccakRound zeroLanes 0)[i] = 0) ∧
  (keccakF zeroLanes)[0] = 0xF1258F7940E1DDE7 ∧ (keccakF zeroLanes)[1] = 0x84D5CCF933C0478A
end

