-- ==== Sys2Proof/Laws/Decode.lean ====
section
/-! SUPPORT. Lemmas about command words and frames: the byte order, the fields, cutting a frame off a byte string, and
decoding the four opcodes. -/

namespace Sys2Proof

/-! ### Byte order -/

theorem le32_extract (w : Word32) :
    le32 (w.extractLsb' 0 8) (w.extractLsb' 8 8) (w.extractLsb' 16 8) (w.extractLsb' 24 8) = w := by
  apply BitVec.eq_of_getLsbD_eq
  intro i hi
  simp only [le32, BitVec.getLsbD_append, BitVec.getLsbD_extractLsb']
  by_cases h1 : i < 8
  · simp [h1]
  by_cases h2 : i - 8 < 8
  · simp [h1, h2]; congr; omega
  by_cases h3 : i - 8 - 8 < 8
  · simp [h1, h2, h3]; congr; omega
  · simp [h1, h2, h3]
    rw [show 24 + (i - 8 - 8 - 8) = i by omega]
    simp; intro _; omega

theorem le32Bytes_le32 (b0 b1 b2 b3 : Byte) : le32Bytes (le32 b0 b1 b2 b3) = [b0, b1, b2, b3] := by
  simp only [le32Bytes, le32, List.cons.injEq, and_true]
  refine ⟨?_, ?_, ?_, ?_⟩ <;> apply BitVec.eq_of_getLsbD_eq <;> intro i hi <;>
    simp only [BitVec.getLsbD_extractLsb', BitVec.getLsbD_append]
  · simp [hi]
  · simp [hi, show ¬ 8 + i < 8 by omega]
  · simp [hi, show ¬ 16 + i < 8 by omega, show ¬ 16 + i - 8 < 8 by omega, show 16 + i - 8 - 8 = i by omega]
  · simp [hi, show ¬ 24 + i < 8 by omega, show ¬ 24 + i - 8 < 8 by omega, show ¬ 24 + i - 8 - 8 < 8 by omega,
      show 24 + i - 8 - 8 - 8 = i by omega]

/-- A word is the word of its own bytes, wherever they came from. -/
theorem le32_of_le32Bytes {w : Word32} {b0 b1 b2 b3 : Byte} (h : le32Bytes w = [b0, b1, b2, b3]) :
    le32 b0 b1 b2 b3 = w := by
  simp only [le32Bytes, List.cons.injEq, and_true] at h
  obtain ⟨rfl, rfl, rfl, rfl⟩ := h
  exact le32_extract w

theorem le32Bytes_length (w : Word32) : (le32Bytes w).length = 4 := rfl

/-! ### Fields -/

theorem opcField_commandWord (o l : Byte) : opcField (commandWord o l) = o := by
  apply BitVec.eq_of_getLsbD_eq; intro i hi
  simp only [opcField, commandWord, BitVec.getLsbD_extractLsb', BitVec.getLsbD_append]
  simp [hi]
theorem lenField_commandWord (o l : Byte) : lenField (commandWord o l) = l := by
  apply BitVec.eq_of_getLsbD_eq; intro i hi
  simp only [lenField, commandWord, BitVec.getLsbD_extractLsb', BitVec.getLsbD_append]
  simp [hi, show ¬ 8 + i < 8 by omega]
theorem rsvField_commandWord (o l : Byte) : rsvField (commandWord o l) = 0 := by
  apply BitVec.eq_of_getLsbD_eq; intro i hi
  simp only [rsvField, commandWord, BitVec.getLsbD_extractLsb', BitVec.getLsbD_append]
  simp [show ¬ 16 + i < 8 by omega, show ¬ 16 + i - 8 < 8 by omega]
theorem opcField_toNat (w : Word32) : (opcField w).toNat = w.toNat % 256 := by
  simp [opcField, BitVec.extractLsb'_toNat]
theorem payloadLength_eq (w : Word32) : payloadLength w = w.toNat / 256 % 256 := by
  simp [payloadLength, lenField, BitVec.extractLsb'_toNat, Nat.shiftRight_eq_div_pow]
theorem rsvField_toNat (w : Word32) : (rsvField w).toNat = w.toNat / 65536 := by
  have := w.isLt
  simp [rsvField, BitVec.extractLsb'_toNat, Nat.shiftRight_eq_div_pow]
  omega

theorem payloadLength_le (w : Word32) : payloadLength w ≤ 255 := by
  rw [payloadLength_eq]; omega

theorem commandWord_toNat_opc (o l : Byte) : (commandWord o l).toNat % 256 = o.toNat := by
  rw [← opcField_toNat, opcField_commandWord]

theorem commandWord_toNat_len (o l : Byte) : (commandWord o l).toNat / 256 % 256 = l.toNat := by
  rw [← payloadLength_eq, payloadLength, lenField_commandWord]

theorem commandWord_toNat_rsv (o l : Byte) : (commandWord o l).toNat / 65536 = 0 := by
  rw [← rsvField_toNat, rsvField_commandWord]; rfl

/-! ### Frames -/

theorem takeFrame_append (w : Word32) (payload rest : List Byte) (h : payload.length = payloadLength w) :
    takeFrame (le32Bytes w ++ payload ++ rest) = some (w, payload, rest) := by
  simp [takeFrame, le32Bytes, le32_extract, ← h]

theorem takeFrame_eq_some {bytes payload rest : List Byte} {w : Word32} (h : takeFrame bytes = some (w, payload, rest)) :
    bytes = le32Bytes w ++ payload ++ rest ∧ payload.length = payloadLength w := by
  unfold takeFrame at h
  split at h
  · rename_i b0 b1 b2 b3 tail
    simp only [Option.ite_none_right_eq_some, Option.some.injEq, Prod.mk.injEq] at h
    obtain ⟨hle, rfl, rfl, rfl⟩ := h
    simp [le32Bytes_le32, hle]
  · simp at h

theorem takeFrame_eq_some_iff {bytes payload rest : List Byte} {w : Word32} :
    takeFrame bytes = some (w, payload, rest) ↔
      bytes = le32Bytes w ++ payload ++ rest ∧ payload.length = payloadLength w :=
  ⟨takeFrame_eq_some, fun ⟨h, hl⟩ => h ▸ takeFrame_append w payload rest hl⟩

/-! ### Decoding -/

theorem ofField_eq (opc : Byte) : Opcode.ofField opc =
    if opc.toNat = 1 then some .init else if opc.toNat = 2 then some .absorb
    else if opc.toNat = 3 then some .final else if opc.toNat = 4 then some .squeeze else none := by
  unfold Opcode.ofField
  split <;> simp_all

/-- The decoder of a complete frame as one chain of checks on the three fields. -/
theorem decodeFrame_eq (w : Word32) (payload : List Byte) : decodeFrame w payload =
    match Opcode.ofField (opcField w) with
    | none => .error .reservedOpcode
    | some op =>
      if w.toNat / 65536 ≠ 0 then .error .reservedBits
      else if op.allowsLength (w.toNat / 256 % 256) then .ok (op.command payload) else .error .badLength := by
  have h : (rsvField w ≠ 0) ↔ (w.toNat / 65536 ≠ 0) := by
    rw [← rsvField_toNat, not_iff_not, ← BitVec.toNat_inj]; rfl
  unfold decodeFrame
  cases Opcode.ofField (opcField w) <;> simp only [h, payloadLength_eq]

/-- The opcode field of each opcode (rule R62). -/
def Opcode.field : Opcode → Nat
  | .init => 1
  | .absorb => 2
  | .final => 3
  | .squeeze => 4

theorem ofField_eq_some {opc : Byte} {op : Opcode} : Opcode.ofField opc = some op ↔ opc.toNat = op.field := by
  rw [ofField_eq]
  cases op <;> simp only [Opcode.field] <;> split_ifs <;> simp_all

/-- The encoder's word is determined by the fields. -/
theorem commandWord_eq {w : Word32} {o l : Nat} (ho : w.toNat % 256 = o) (hl : w.toNat / 256 % 256 = l)
    (hr : w.toNat / 65536 = 0) : commandWord (BitVec.ofNat 8 o) (BitVec.ofNat 8 l) = w := by
  apply BitVec.eq_of_toNat_eq
  have h1 := commandWord_toNat_opc (BitVec.ofNat 8 o) (BitVec.ofNat 8 l)
  have h2 := commandWord_toNat_len (BitVec.ofNat 8 o) (BitVec.ofNat 8 l)
  have h3 := commandWord_toNat_rsv (BitVec.ofNat 8 o) (BitVec.ofNat 8 l)
  simp only [BitVec.toNat_ofNat] at h1 h2
  omega

/-- What a decoded frame says of its word and its command. -/
theorem decodeFrame_eq_ok {w : Word32} {payload : List Byte} {i : Instr} :
    decodeFrame w payload = .ok i ↔ ∃ op : Opcode, w.toNat % 256 = op.field ∧ w.toNat / 65536 = 0 ∧
      op.allowsLength (w.toNat / 256 % 256) = true ∧ i = op.command payload := by
  rw [decodeFrame_eq]
  constructor
  · intro h
    cases hop : Opcode.ofField (opcField w) with
    | none => simp [hop] at h
    | some op =>
      simp only [hop] at h
      rw [ofField_eq_some, opcField_toNat] at hop
      split_ifs at h with hr hl
      simp only [Except.ok.injEq] at h
      exact ⟨op, hop, by omega, hl, h.symm⟩
  · rintro ⟨op, ho, hr, hl, rfl⟩
    rw [← opcField_toNat, ← ofField_eq_some] at ho
    simp [ho, hr, hl]

/-- A command decoded from a payload of the announced length is well formed, and its frame is that word and payload. -/
theorem decodeFrame_ok {w : Word32} {payload : List Byte} {i : Instr} (hlen : payload.length = payloadLength w)
    (h : decodeFrame w payload = .ok i) : i.WellFormed ∧ encodeWord i = w ∧ i.payload = payload := by
  obtain ⟨op, ho, hr, hl, rfl⟩ := decodeFrame_eq_ok.mp h
  rw [payloadLength_eq] at hlen
  cases op <;> simp only [Opcode.allowsLength, beq_iff_eq, decide_eq_true_eq, Opcode.field] at hl ho
  · have : payload = [] := List.length_eq_zero_iff.mp (by omega)
    exact ⟨rfl, commandWord_eq ho hl hr, by simp [Opcode.command, Instr.payload, this]⟩
  · exact ⟨by simp [Instr.WellFormed, Opcode.command, Instr.wf]; omega, commandWord_eq ho hl hr, rfl⟩
  · exact ⟨by simp [Instr.WellFormed, Opcode.command, Instr.wf]; omega, commandWord_eq ho hlen.symm hr, rfl⟩
  · have : payload = [] := List.length_eq_zero_iff.mp (by omega)
    exact ⟨rfl, commandWord_eq ho hl hr, by simp [Opcode.command, Instr.payload, this]⟩

end Sys2Proof
end

