-- ==== Sys2Proof/Laws/Assembler.lean ====
section
/-! SUPPORT. The textual syntax: what a written byte string reads as, and how a line falls into words (rule R69). -/

namespace Sys2Proof.Machine

/-- A letter of a word of a line: no space, no tab, no start of a comment. -/
def TokenChar (c : Char) : Prop := c ≠ ' ' ∧ c ≠ '\t' ∧ c ≠ ';'

theorem hexChar_tokenChar {n : Nat} (hn : n < 16) : TokenChar (hexChar n) := by
  unfold TokenChar
  interval_cases n <;> decide

theorem hexDigit_hexChar {n : Nat} (hn : n < 16) : hexDigit (hexChar n) = some n := by
  interval_cases n <;> decide

theorem hexChar_ne {n : Nat} (hn : n < 16) : hexChar n ≠ 'x' ∧ hexChar n ≠ Char.ofNat 34 := by
  interval_cases n <;> decide

theorem hexText_cons (b : Byte) (bytes : List Byte) :
    hexText (b :: bytes) = hexChar (b.toNat / 16) :: hexChar (b.toNat % 16) :: hexText bytes := rfl

theorem hexBytes_hexText (bytes : List Byte) : hexBytes (hexText bytes) = some bytes := by
  induction bytes with
  | nil => rfl
  | cons b bytes ih =>
    rw [hexText_cons, hexBytes, hexDigit_hexChar (by omega), hexDigit_hexChar (by omega), ih]
    simp only [Option.some.injEq, List.cons.injEq, and_true]
    rw [show 16 * (b.toNat / 16) + b.toNat % 16 = b.toNat by omega]
    simp

theorem hexText_tokenChars (bytes : List Byte) : ∀ c ∈ hexText bytes, TokenChar c := by
  intro c hc
  simp only [hexText, List.mem_flatMap, List.mem_cons, List.not_mem_nil, or_false] at hc
  obtain ⟨b, -, rfl | rfl⟩ := hc
  · exact hexChar_tokenChar (by omega)
  · exact hexChar_tokenChar (by omega)

theorem stripComment_of_tokenChars {line : List Char} (h : ∀ c ∈ line, c ≠ ';') : stripComment line = line := by
  rw [stripComment, List.takeWhile_eq_self_iff]
  intro c hc; simpa using h c hc

theorem tokensFrom_append (word token rest : List Char) (h : ∀ c ∈ token, TokenChar c) :
    tokensFrom word (token ++ rest) = tokensFrom (word ++ token) rest := by
  induction token generalizing word with
  | nil => simp
  | cons c token ih =>
    have hc := h c (by simp)
    rw [List.cons_append, tokensFrom, if_neg (by simp [hc.1, hc.2.1]), ih _ (fun c hc => h c (by simp [hc]))]
    simp

theorem tokensFrom_space {word : List Char} (rest : List Char) (h : word ≠ []) :
    tokensFrom word (' ' :: rest) = word :: tokensFrom [] rest := by
  simp [tokensFrom, h]

theorem tokensFrom_last {word : List Char} (hw : ∀ c ∈ word, TokenChar c) (h : word ≠ []) :
    tokensFrom [] word = [word] := by
  have := tokensFrom_append [] word [] hw
  rw [List.append_nil, List.nil_append] at this
  rw [this]
  simp [tokensFrom, h]

/-- A comment changes nothing. -/
theorem stripComment_append (line comment : List Char) : stripComment (line ++ ';' :: comment) = stripComment line := by
  induction line with
  | nil => simp [stripComment]
  | cons c line ih =>
    simp only [stripComment, List.cons_append, List.takeWhile_cons] at ih ⊢
    split
    · rw [ih]
    · rfl

/-- A line of two words. -/
theorem tokensFrom_two {m t : List Char} (hm : ∀ c ∈ m, TokenChar c) (ht : ∀ c ∈ t, TokenChar c) (h1 : m ≠ [])
    (h2 : t ≠ []) : tokensFrom [] (stripComment (m ++ ' ' :: t)) = [m, t] := by
  rw [stripComment_of_tokenChars, tokensFrom_append _ _ _ hm, List.nil_append, tokensFrom_space _ h1,
    tokensFrom_last ht h2]
  intro c hc
  simp only [List.mem_append, List.mem_cons] at hc
  rcases hc with hc | rfl | hc
  · exact (hm c hc).2.2
  · decide
  · exact (ht c hc).2.2

/-- A line of three words. -/
theorem tokensFrom_three {m t u : List Char} (hm : ∀ c ∈ m, TokenChar c) (ht : ∀ c ∈ t, TokenChar c)
    (hu : ∀ c ∈ u, TokenChar c) (h1 : m ≠ []) (h2 : t ≠ []) (h3 : u ≠ []) :
    tokensFrom [] (stripComment (m ++ ' ' :: (t ++ ' ' :: u))) = [m, t, u] := by
  rw [stripComment_of_tokenChars, tokensFrom_append _ _ _ hm, List.nil_append, tokensFrom_space _ h1,
    tokensFrom_append _ _ _ ht, List.nil_append, tokensFrom_space _ h2, tokensFrom_last hu h3]
  intro c hc
  simp only [List.mem_append, List.mem_cons] at hc
  rcases hc with hc | rfl | hc | rfl | hc
  · exact (hm c hc).2.2
  · decide
  · exact (ht c hc).2.2
  · decide
  · exact (hu c hc).2.2

/-- Eight hex digits after `0x`, as rule R16 writes a value, read as the same word. -/
theorem hexWord_0x_hexText (b0 b1 b2 b3 : Byte) :
    hexWord ('0' :: 'x' :: hexText [b3, b2, b1, b0]) = some (le32 b0 b1 b2 b3) := by
  simp [hexWord, hexBytes_hexText]

theorem hexText_0x_tokenChars (bytes : List Byte) : ∀ c ∈ '0' :: 'x' :: hexText bytes, TokenChar c := by
  intro c hc
  simp only [List.mem_cons] at hc
  rcases hc with rfl | rfl | hc
  · unfold TokenChar; decide
  · unfold TokenChar; decide
  · exact hexText_tokenChars bytes c hc

/-- The mnemonics that take an operand are words. -/
theorem mnemonic_tokenChars : ∀ m ∈ ["ABSORB".toList, "FINAL".toList, "SHA3_256".toList, ".word".toList],
    m ≠ [] ∧ ∀ c ∈ m, TokenChar c := by
  simp [TokenChar]

theorem hexText_ne_nil {bytes : List Byte} (h : bytes ≠ []) : hexText bytes ≠ [] := by
  cases bytes with
  | nil => exact absurd rfl h
  | cons b bytes => simp [hexText_cons]

theorem hexOperand_hexText (bytes : List Byte) : hexOperand (hexText bytes) = some bytes := by
  unfold hexOperand
  rw [if_neg, hexBytes_hexText]
  cases bytes with
  | nil => simp [hexText]
  | cons b bytes =>
    rw [hexText_cons]
    simp only [List.cons.injEq, not_and]
    intro h; exact absurd h (hexChar_ne (by omega)).2

theorem hexWord_hexText (b0 b1 b2 b3 : Byte) : hexWord (hexText [b3, b2, b1, b0]) = some (le32 b0 b1 b2 b3) := by
  unfold hexWord
  rw [if_neg, hexBytes_hexText]
  rw [hexText_cons]
  simp only [List.take_succ_cons, List.cons.injEq, List.take_zero, not_and]
  intro _ h
  exact absurd h (hexChar_ne (by omega)).1

end Sys2Proof.Machine
end

