-- ==== Sys2Proof/Laws/Bytes.lean ====
section
/-! SUPPORT. The bytes of a lane, lanes made of bytes, and the bits of the flattened state (rules R41, R42). -/

namespace Sys2Proof.Machine

theorem laneByte_getLsbD (v : Lane) (b j : Nat) (hj : j < 8) : (laneByte v b).getLsbD j = v.getLsbD (8 * b + j) := by
  simp [laneByte, hj]

theorem laneByte_xor (u v : Lane) (b : Nat) : laneByte (u ^^^ v) b = laneByte u b ^^^ laneByte v b := by
  apply BitVec.eq_of_getLsbD_eq
  intro j hj
  simp [laneByte, hj]

/-- A byte moved to place `i` of a lane. -/
theorem shiftedByte_getLsbD (x : Byte) (i j : Nat) (hj : j < 64) :
    (x.setWidth 64 <<< (8 * i)).getLsbD j = (decide (8 * i ≤ j) && x.getLsbD (j - 8 * i)) := by
  by_cases h : 8 * i ≤ j
  · simp [h, hj, Nat.not_lt.mpr h]
  · simp [h, hj, Nat.lt_of_not_le h]

/-- Bit `j` of lane `w` of a byte string is bit `j mod 8` of byte `8w + j div 8`. -/
theorem laneOfBytes_getLsbD (P : List Byte) (w j : Nat) (hj : j < 64) :
    (laneOfBytes P w).getLsbD j = (P.getD (8 * w + j / 8) 0).getLsbD (j % 8) := by
  have key (i : Nat) : ((P.getD (8 * w + i) 0).setWidth 64 <<< (8 * i)).getLsbD j =
      (decide (i = j / 8) && (P.getD (8 * w + j / 8) 0).getLsbD (j % 8)) := by
    rw [shiftedByte_getLsbD _ _ _ hj]
    by_cases h : i = j / 8
    · subst h
      have : j - 8 * (j / 8) = j % 8 := by omega
      simp [this, Nat.mul_div_le]
    · by_cases h8 : 8 * i ≤ j
      · rw [BitVec.getLsbD_of_ge _ (j - 8 * i) (by omega)]; simp [h]
      · simp [h, h8]
  simp only [laneOfBytes, BitVec.getLsbD_or, key]
  have h8 : j / 8 < 8 := by omega
  generalize (P.getD (8 * w + j / 8) 0).getLsbD (j % 8) = v
  revert h8
  generalize j / 8 = k
  intro h8
  interval_cases k <;> simp

theorem laneByte_laneOfBytes (P : List Byte) (w b : Nat) (hb : b < 8) :
    laneByte (laneOfBytes P w) b = P.getD (8 * w + b) 0 := by
  apply BitVec.eq_of_getLsbD_eq
  intro j hj
  rw [laneByte_getLsbD _ _ _ hj, laneOfBytes_getLsbD _ _ _ (by omega), show (8 * b + j) / 8 = b by omega,
    show (8 * b + j) % 8 = j by omega]

/-- A lane is its eight bytes. -/
theorem lane_eq_of_laneByte_eq {u v : Lane} (h : ∀ b < 8, laneByte u b = laneByte v b) : u = v := by
  apply BitVec.eq_of_getLsbD_eq
  intro j hj
  have := congrArg (fun x => x.getLsbD (j % 8)) (h (j / 8) (by omega))
  simp only [laneByte_getLsbD _ _ _ (Nat.mod_lt j (by decide : 0 < 8))] at this
  rwa [show 8 * (j / 8) + j % 8 = j by omega] at this

theorem bytesFromLanes_length (L : List Lane) : (bytesFromLanes L).length = 8 * L.length := by
  induction L with
  | nil => rfl
  | cons v L ih => simp_all [bytesFromLanes]; omega

theorem bytesFromLanes_getElem? (L : List Lane) (k : Nat) :
    (bytesFromLanes L)[k]? = L[k / 8]?.map fun v => laneByte v (k % 8) := by
  induction L generalizing k with
  | nil => simp [bytesFromLanes]
  | cons v L ih =>
    have hc : bytesFromLanes (v :: L) = (List.range 8).map (laneByte v) ++ bytesFromLanes L := rfl
    rw [hc]
    by_cases h : k < 8
    · rw [List.getElem?_append_left (by simpa using h)]
      simp [Nat.div_eq_of_lt h, Nat.mod_eq_of_lt h, h]
    · rw [List.getElem?_append_right (by simp; omega)]
      simp only [List.length_map, List.length_range]
      rw [ih, show k / 8 = (k - 8) / 8 + 1 by omega, show k % 8 = (k - 8) % 8 by omega, List.getElem?_cons_succ]

theorem xorBlock_getElem (A : Lanes) (P : List Byte) (i : Nat) (h : i < 25) :
    (xorBlock A P)[i] = if i < 17 then A[i] ^^^ laneOfBytes P i else A[i] := by
  simp [xorBlock]

theorem flatten_getLsbD (A : Lanes) (j : Nat) (hj : j < 1600) : (flatten A).getLsbD j = A[j / 64].getLsbD (j % 64) := by
  simp [flatten, hj]

theorem unflatten_getElem (S : BitVec 1600) (i : Nat) (h : i < 25) : (unflatten S)[i] = S.extractLsb' (64 * i) 64 := by
  simp [unflatten]

theorem pad_length (T : List Byte) (h : T.length ≤ 136) : (pad T).length = 136 := by
  simp [pad]; omega

end Sys2Proof.Machine
end

