-- ==== Sys2Proof/Laws/Keccak.lean ====
section
/-! SUPPORT. Each stage of the permutation by lane coordinates (rules R80 to R88), and each stage of the core's schedule
(rule R86, entry U13). -/

namespace Sys2Proof.Machine

/-! ### Coordinates -/

theorem laneAt_ofColumnRow (f : Fin 5 → Fin 5 → Lane) (x y : Fin 5) : laneAt (ofColumnRow f) x y = f x y := by
  simp only [laneAt, ofColumnRow, Vector.getElem_ofFn]
  congr 1 <;> (apply Fin.ext; simp; try omega)

/-- A state is its lanes `[x, y]`. -/
theorem lanes_eq_of_laneAt_eq {A B : Lanes} (h : ∀ x y, laneAt A x y = laneAt B x y) : A = B := by
  apply Vector.ext
  intro i hi
  have := h ⟨i % 5, by omega⟩ ⟨i / 5, by omega⟩
  simp only [laneAt] at this
  simpa only [show (i % 5 + 5 * (i / 5)) = i by omega] using this

theorem laneAt_set (A : Lanes) (x y x' y' : Fin 5) (v : Lane) :
    laneAt (A.set (x'.val + 5 * y'.val) v) x y = if x = x' ∧ y = y' then v else laneAt A x y := by
  simp only [laneAt, Vector.getElem_set]
  congr 1
  apply propext
  constructor
  · intro h; constructor <;> apply Fin.ext <;> omega
  · rintro ⟨rfl, rfl⟩; rfl

/-! ### The step mappings -/

theorem columnParity_getElem (A : Lanes) (x : Nat) (h : x < 5) : (columnParity A)[x] =
    laneAt A ⟨x, h⟩ 0 ^^^ laneAt A ⟨x, h⟩ 1 ^^^ laneAt A ⟨x, h⟩ 2 ^^^ laneAt A ⟨x, h⟩ 3 ^^^ laneAt A ⟨x, h⟩ 4 := by
  simp [columnParity]

theorem laneAt_theta (A : Lanes) (x y : Fin 5) :
    laneAt (theta A) x y = laneAt A x y ^^^ ((columnParity A)[x - 1] ^^^ rotl64 (columnParity A)[x + 1] 1) := by
  simp [theta, addToColumns, laneAt_ofColumnRow, thetaEffect]

theorem laneAt_rho (A : Lanes) (x y : Fin 5) : laneAt (rho A) x y = rotl64 (laneAt A x y) RHO[x.val + 5 * y.val] := by
  simp [laneAt, rho]

theorem RHO_le (i : Fin 25) : RHO[i] ≤ 63 := by revert i; decide

theorem laneAt_pi (A : Lanes) (x y : Fin 5) : laneAt (pi A) x y = laneAt A (x + 3 * y) x := by
  simp [pi, laneAt_ofColumnRow]

theorem laneAt_chi (A : Lanes) (x y : Fin 5) :
    laneAt (chi A) x y = laneAt A x y ^^^ (~~~ laneAt A (x + 1) y &&& laneAt A (x + 2) y) := by
  simp [chi, laneAt_ofColumnRow]

theorem iota_getElem (A : Lanes) (r : Fin 24) (i : Nat) (h : i < 25) :
    (iota A r)[i] = if i = 0 then A[i] ^^^ RC[r] else A[i] := by
  simp only [iota, Vector.getElem_set]
  split
  · rename_i h; subst h; rfl
  · rename_i h; rw [if_neg (Ne.symm h)]

/-! ### Chi in place -/

theorem laneAt_chiRowInPlace (A : Lanes) (x y y' : Fin 5) :
    laneAt (chiRowInPlace A y') x y = if y = y' then chiLane (rowOf A y') x else laneAt A x y := by
  have key (l : List (Fin 5)) (hl : l.Nodup) (B : Lanes) :
      laneAt (l.foldl (fun B x => B.set (x.val + 5 * y'.val) (chiLane (rowOf A y') x)) B) x y =
        if x ∈ l ∧ y = y' then chiLane (rowOf A y') x else laneAt B x y := by
    induction l generalizing B with
    | nil => simp
    | cons a l ih =>
      rw [List.foldl_cons, ih (List.nodup_cons.mp hl).2, laneAt_set]
      have := (List.nodup_cons.mp hl).1
      by_cases hy : y = y' <;> by_cases hx : x = a <;> by_cases hm : x ∈ l <;> simp_all
  rw [chiRowInPlace, key _ (List.nodup_finRange 5)]
  simp

/-- The core's chi is chi, row after row (rule R87). -/
theorem chiInPlace_eq_chi (A : Lanes) : (chiInPlace A).1 = chi A := by
  have key (l : List (Fin 5)) (hl : l.Nodup) (At : Lanes × FiveLanes) (x y : Fin 5) :
      laneAt (l.foldl (fun At y => (chiRowInPlace At.1 y, rowOf At.1 y)) At).1 x y =
        if y ∈ l then chiLane (rowOf At.1 y) x else laneAt At.1 x y := by
    induction l generalizing At with
    | nil => simp
    | cons a l ih =>
      rw [List.foldl_cons, ih (List.nodup_cons.mp hl).2]
      have ha := (List.nodup_cons.mp hl).1
      by_cases hy : y ∈ l
      · have hne : y ≠ a := fun h => ha (h ▸ hy)
        have hrow : rowOf (chiRowInPlace At.1 a) y = rowOf At.1 y := by simp [rowOf, laneAt_chiRowInPlace, hne]
        simp [hy, hrow]
      · by_cases hya : y = a
        · subst hya; simp [hy, laneAt_chiRowInPlace]
        · simp [hy, hya, laneAt_chiRowInPlace]
  apply lanes_eq_of_laneAt_eq
  intro x y
  rw [chiInPlace, key _ (List.nodup_finRange 5), laneAt_chi]
  simp [chiLane, rowOf]

/-! ### Rounds of the schedule -/

theorem runRound_round (w : CoreWork) : w.runRound.round = w.round + 1 := rfl

theorem runRounds_succ (n : Nat) (w : CoreWork) : CoreWork.runRounds (n + 1) w = (CoreWork.runRounds n w).runRound := rfl

/-- After `n` rounds from round 0 the counter is at round `n`. -/
theorem runRounds_round (n : Nat) (w : CoreWork) (hw : w.round = 0) : (CoreWork.runRounds n w).round = Fin.ofNat 24 n := by
  induction n with
  | zero => exact hw
  | succ n ih =>
    rw [runRounds_succ, runRound_round, ih]
    apply Fin.ext
    simp [Fin.val_add]

/-- The rounds of the permutation, one more at a time. -/
theorem take_finRange_succ {k : Nat} (h : k < 24) :
    (List.finRange 24).take (k + 1) = (List.finRange 24).take k ++ [⟨k, h⟩] := by
  interval_cases k <;> rfl

end Sys2Proof.Machine
end

