-- ==== Sys2Proof/Laws/PerInstr.lean ====
section
/-! SUPPORT. The per-instruction family LegalWord: the word the encoder writes for a well-formed command announces that
command's payload and decodes to that command (rules R60 to R65). -/

namespace Sys2Proof.Laws.LegalWord

/-- The encoder's word announces the payload, and the decoder reads the command back. -/
def Statement (i : Instr) : Prop :=
  i.WellFormed → i.payload.length = payloadLength (encodeWord i) ∧ decodeFrame (encodeWord i) i.payload = .ok i

theorem init : Statement .init := fun _ => by
  refine ⟨by simp [payloadLength_eq, encodeWord, commandWord_toNat_len, Instr.payload], decodeFrame_eq_ok.mpr ?_⟩
  exact ⟨.init, commandWord_toNat_opc 1 0, commandWord_toNat_rsv 1 0,
    by simp [encodeWord, commandWord_toNat_len, Opcode.allowsLength], rfl⟩

theorem absorb (block : List Byte) : Statement (.absorb block) := fun h => by
  simp only [Instr.WellFormed, Instr.wf, beq_iff_eq] at h
  refine ⟨by simp [payloadLength_eq, encodeWord, commandWord_toNat_len, Instr.payload, h], decodeFrame_eq_ok.mpr ?_⟩
  exact ⟨.absorb, commandWord_toNat_opc 2 136, commandWord_toNat_rsv 2 136,
    by simp [encodeWord, commandWord_toNat_len, Opcode.allowsLength], rfl⟩

theorem final (tail : List Byte) : Statement (.final tail) := fun h => by
  simp only [Instr.WellFormed, Instr.wf, decide_eq_true_eq] at h
  have hm : tail.length % 256 = tail.length := Nat.mod_eq_of_lt (by omega)
  refine ⟨by simp [payloadLength_eq, encodeWord, commandWord_toNat_len, Instr.payload, hm], decodeFrame_eq_ok.mpr ?_⟩
  exact ⟨.final, commandWord_toNat_opc 3 _, commandWord_toNat_rsv 3 _,
    by simp [encodeWord, commandWord_toNat_len, Opcode.allowsLength, hm, h], rfl⟩

theorem squeeze : Statement .squeeze := fun _ => by
  refine ⟨by simp [payloadLength_eq, encodeWord, commandWord_toNat_len, Instr.payload], decodeFrame_eq_ok.mpr ?_⟩
  exact ⟨.squeeze, commandWord_toNat_opc 4 0, commandWord_toNat_rsv 4 0,
    by simp [encodeWord, commandWord_toNat_len, Opcode.allowsLength], rfl⟩

end Sys2Proof.Laws.LegalWord
end

