-- ==== Sys2Proof/Laws/Sponge.lean ====
section
/-! SUPPORT. The absorb loop taken apart at a block boundary, and the digest of a message (rules R110, R119). -/

namespace Sys2Proof.Machine

/-- Absorbing one more block after `k` blocks. -/
theorem absorbBlocks_concat (k : Nat) (A : Lanes) (M P : List Byte) (hM : M.length = 136 * k) (hP : P.length = 136) :
    absorbBlocks (k + 1) A (M ++ P) = absorb (absorbBlocks k A M) P := by
  induction k generalizing A M with
  | zero =>
    have : M = [] := List.length_eq_zero_iff.mp (by omega)
    subst this
    simp [absorbBlocks, List.take_of_length_le (Nat.le_of_eq hP)]
  | succ k ih =>
    rw [absorbBlocks, List.take_append_of_le_length (by omega), List.drop_append_of_le_length (by omega),
      ih _ _ (by simp [hM]; omega)]
    rfl

/-- The first `k` blocks do not depend on the bytes after them. -/
theorem absorbBlocks_append (k : Nat) (A : Lanes) (M P : List Byte) (hM : M.length = 136 * k) :
    absorbBlocks k A (M ++ P) = absorbBlocks k A M := by
  induction k generalizing A M with
  | zero => rfl
  | succ k ih =>
    rw [absorbBlocks, absorbBlocks, List.take_append_of_le_length (by omega),
      List.drop_append_of_le_length (by omega), ih _ _ (by simp [hM]; omega)]

/-- Block `k` of a message is absorbed after the blocks before it. -/
theorem absorbBlocks_succ (k : Nat) (A : Lanes) (M : List Byte) :
    absorbBlocks (k + 1) A M = absorb (absorbBlocks k A M) (blockOf M k) := by
  induction k generalizing A M with
  | zero => simp [absorbBlocks, blockOf]
  | succ k ih =>
    rw [absorbBlocks, ih, absorbBlocks]
    congr 1
    simp only [blockOf, List.drop_drop]
    congr 2; omega

/-- Full blocks and then a short tail are a message. -/
theorem absorbMessage_append (k : Nat) (A : Lanes) (M T : List Byte) (hM : M.length = 136 * k) (hT : T.length ≤ 135) :
    absorbMessage A (M ++ T) = absorb (absorbBlocks k A M) (pad T) := by
  have hf : fullBlocks (M ++ T) = k := by simp [fullBlocks, hM]; omega
  have ht : tailOf (M ++ T) = T := by
    rw [tailOf, hf, ← hM]; simp
  rw [absorbMessage, hf, ht, absorbBlocks_append _ _ _ _ hM]

theorem tailOf_length_le (M : List Byte) : (tailOf M).length ≤ 135 := by
  simp only [tailOf, fullBlocks, List.length_drop]; omega

theorem blockOf_length {M : List Byte} {b : Nat} (hb : b < fullBlocks M) : (blockOf M b).length = 136 := by
  simp only [fullBlocks] at hb
  simp only [blockOf, List.length_take, List.length_drop]; omega

/-- The digest of a message, as SQUEEZE answers it. -/
theorem squeeze_absorbMessage (M : List Byte) : squeeze (absorbMessage zeroLanes M) = sha3_256 M := by
  rw [sha3_256]

theorem squeeze_length (A : Lanes) : (squeeze A).length = 32 := by
  simp [squeeze, bytesFromLanes]

/-! ### The response words of accepted commands -/

theorem acceptedWord_absorbing : le32Bytes (responseWord false .absorbing .none) = [0x00, 0x00, 0x00, 0x00] := by decide

theorem acceptedWord_squeezing : le32Bytes (responseWord false .squeezing .none) = [0x02, 0x00, 0x00, 0x00] := by decide

theorem rejectedWord_mem (c : Cause) : responseWord true .error (.rejected c) ∈ responseWords := by
  rcases c with (_ | _ | _) | _ | _ <;> decide

theorem reason_none_of_phase {s : State} (h : s.ReasonMatchesPhase) (hp : s.phase ≠ .error) : s.reason = .none := by
  unfold State.ReasonMatchesPhase at h
  by_contra hr
  exact hp (h.mp hr)

end Sys2Proof.Machine
end

