-- ==== Sys2Proof/Laws/State.lean ====
section
/-! SUPPORT. What each named update of the state leaves in each field. -/

namespace Sys2Proof.Machine

variable (s : State)

/-! ### `freeCore` -/

@[simp] theorem State.freeCore_lanes : (s.freeCore).lanes = s.lanes := rfl
@[simp] theorem State.freeCore_phase : (s.freeCore).phase = s.phase := rfl
@[simp] theorem State.freeCore_reason : (s.freeCore).reason = s.reason := rfl
@[simp] theorem State.freeCore_staging : (s.freeCore).staging = s.staging := rfl
@[simp] theorem State.freeCore_recv : (s.freeCore).recv = s.recv := rfl
@[simp] theorem State.freeCore_core : (s.freeCore).core = freeCoreWork s.freeCtr := rfl
@[simp] theorem State.freeCore_freeCtr : (s.freeCore).freeCtr = s.freeCtr + 1 := rfl
@[simp] theorem State.freeCore_cmdPort : (s.freeCore).cmdPort = s.cmdPort := rfl
@[simp] theorem State.freeCore_rspPort : (s.freeCore).rspPort = s.rspPort := rfl
@[simp] theorem State.freeCore_host : (s.freeCore).host = s.host := rfl

/-! ### `absorbBlock` -/

@[simp] theorem State.absorbBlock_lanes (P : List Byte) : (s.absorbBlock P).lanes = absorb s.lanes P := by simp only [State.absorbBlock, State.freeCore]
@[simp] theorem State.absorbBlock_phase (P : List Byte) : (s.absorbBlock P).phase = s.phase := by simp only [State.absorbBlock, State.freeCore]
@[simp] theorem State.absorbBlock_reason (P : List Byte) : (s.absorbBlock P).reason = s.reason := by simp only [State.absorbBlock, State.freeCore]
@[simp] theorem State.absorbBlock_staging (P : List Byte) : (s.absorbBlock P).staging = s.staging := by simp only [State.absorbBlock, State.freeCore]
@[simp] theorem State.absorbBlock_recv (P : List Byte) : (s.absorbBlock P).recv = s.recv := by simp only [State.absorbBlock, State.freeCore]
@[simp] theorem State.absorbBlock_core (P : List Byte) : (s.absorbBlock P).core = freeCoreWork s.freeCtr := by simp only [State.absorbBlock, State.freeCore]
@[simp] theorem State.absorbBlock_freeCtr (P : List Byte) : (s.absorbBlock P).freeCtr = s.freeCtr + 1 := by simp only [State.absorbBlock, State.freeCore]
@[simp] theorem State.absorbBlock_cmdPort (P : List Byte) : (s.absorbBlock P).cmdPort = s.cmdPort := by simp only [State.absorbBlock, State.freeCore]
@[simp] theorem State.absorbBlock_rspPort (P : List Byte) : (s.absorbBlock P).rspPort = s.rspPort := by simp only [State.absorbBlock, State.freeCore]
@[simp] theorem State.absorbBlock_host (P : List Byte) : (s.absorbBlock P).host = s.host := by simp only [State.absorbBlock, State.freeCore]

/-! ### `sendResponse` -/

@[simp] theorem State.sendResponse_lanes (rej : Bool) (digest : List Byte) : (s.sendResponse rej digest).lanes = s.lanes := rfl
@[simp] theorem State.sendResponse_phase (rej : Bool) (digest : List Byte) : (s.sendResponse rej digest).phase = s.phase := rfl
@[simp] theorem State.sendResponse_reason (rej : Bool) (digest : List Byte) : (s.sendResponse rej digest).reason = s.reason := rfl
@[simp] theorem State.sendResponse_staging (rej : Bool) (digest : List Byte) : (s.sendResponse rej digest).staging = [] := rfl
@[simp] theorem State.sendResponse_recv (rej : Bool) (digest : List Byte) : (s.sendResponse rej digest).recv = .respond (le32Bytes (responseWord rej s.phase s.reason) ++ digest) := rfl
@[simp] theorem State.sendResponse_core (rej : Bool) (digest : List Byte) : (s.sendResponse rej digest).core = s.core := rfl
@[simp] theorem State.sendResponse_freeCtr (rej : Bool) (digest : List Byte) : (s.sendResponse rej digest).freeCtr = s.freeCtr := rfl
@[simp] theorem State.sendResponse_cmdPort (rej : Bool) (digest : List Byte) : (s.sendResponse rej digest).cmdPort = s.cmdPort := rfl
@[simp] theorem State.sendResponse_rspPort (rej : Bool) (digest : List Byte) : (s.sendResponse rej digest).rspPort = s.rspPort := rfl
@[simp] theorem State.sendResponse_host (rej : Bool) (digest : List Byte) : (s.sendResponse rej digest).host = s.host := rfl

/-! ### `accept` -/

@[simp] theorem State.accept_lanes : (s.accept).lanes = s.lanes := rfl
@[simp] theorem State.accept_phase : (s.accept).phase = s.phase := rfl
@[simp] theorem State.accept_reason : (s.accept).reason = s.reason := rfl
@[simp] theorem State.accept_staging : (s.accept).staging = [] := rfl
@[simp] theorem State.accept_recv : (s.accept).recv = .respond (le32Bytes (responseWord false s.phase s.reason)) := rfl
@[simp] theorem State.accept_core : (s.accept).core = s.core := rfl
@[simp] theorem State.accept_freeCtr : (s.accept).freeCtr = s.freeCtr := rfl
@[simp] theorem State.accept_cmdPort : (s.accept).cmdPort = s.cmdPort := rfl
@[simp] theorem State.accept_rspPort : (s.accept).rspPort = s.rspPort := rfl
@[simp] theorem State.accept_host : (s.accept).host = s.host := rfl

/-! ### `reject` -/

@[simp] theorem State.reject_lanes (c : Cause) : (s.reject c).lanes = s.lanes := rfl
@[simp] theorem State.reject_phase (c : Cause) : (s.reject c).phase = .error := rfl
@[simp] theorem State.reject_reason (c : Cause) : (s.reject c).reason = .rejected c := rfl
@[simp] theorem State.reject_staging (c : Cause) : (s.reject c).staging = [] := rfl
@[simp] theorem State.reject_recv (c : Cause) : (s.reject c).recv = .respond (le32Bytes (responseWord true .error (.rejected c))) := rfl
@[simp] theorem State.reject_core (c : Cause) : (s.reject c).core = s.core := rfl
@[simp] theorem State.reject_freeCtr (c : Cause) : (s.reject c).freeCtr = s.freeCtr := rfl
@[simp] theorem State.reject_cmdPort (c : Cause) : (s.reject c).cmdPort = s.cmdPort := rfl
@[simp] theorem State.reject_rspPort (c : Cause) : (s.reject c).rspPort = s.rspPort := rfl
@[simp] theorem State.reject_host (c : Cause) : (s.reject c).host = s.host := rfl

/-! ### `startMessage` -/

@[simp] theorem State.startMessage_lanes : (s.startMessage).lanes = zeroLanes := rfl
@[simp] theorem State.startMessage_phase : (s.startMessage).phase = .absorbing := rfl
@[simp] theorem State.startMessage_reason : (s.startMessage).reason = .none := rfl
@[simp] theorem State.startMessage_staging : (s.startMessage).staging = s.staging := rfl
@[simp] theorem State.startMessage_recv : (s.startMessage).recv = s.recv := rfl
@[simp] theorem State.startMessage_core : (s.startMessage).core = s.core := rfl
@[simp] theorem State.startMessage_freeCtr : (s.startMessage).freeCtr = s.freeCtr := rfl
@[simp] theorem State.startMessage_cmdPort : (s.startMessage).cmdPort = s.cmdPort := rfl
@[simp] theorem State.startMessage_rspPort : (s.startMessage).rspPort = s.rspPort := rfl
@[simp] theorem State.startMessage_host : (s.startMessage).host = s.host := rfl

/-! ### `resetEvent` -/

@[simp] theorem State.resetEvent_lanes : (s.resetEvent).lanes = zeroLanes := rfl
@[simp] theorem State.resetEvent_phase : (s.resetEvent).phase = .absorbing := rfl
@[simp] theorem State.resetEvent_reason : (s.resetEvent).reason = .none := rfl
@[simp] theorem State.resetEvent_staging : (s.resetEvent).staging = [] := rfl
@[simp] theorem State.resetEvent_recv : (s.resetEvent).recv = .word [] := rfl
@[simp] theorem State.resetEvent_core : (s.resetEvent).core = freeCoreWork s.freeCtr := rfl
@[simp] theorem State.resetEvent_freeCtr : (s.resetEvent).freeCtr = s.freeCtr + 1 := rfl
@[simp] theorem State.resetEvent_cmdPort : (s.resetEvent).cmdPort = s.cmdPort := rfl
@[simp] theorem State.resetEvent_rspPort : (s.resetEvent).rspPort = s.rspPort := rfl
@[simp] theorem State.resetEvent_host : (s.resetEvent).host = s.host := rfl

/-! ### `afterAct` -/

@[simp] theorem State.afterAct_lanes : (s.afterAct).lanes = s.lanes := rfl
@[simp] theorem State.afterAct_phase : (s.afterAct).phase = s.phase := rfl
@[simp] theorem State.afterAct_reason : (s.afterAct).reason = s.reason := rfl
@[simp] theorem State.afterAct_staging : (s.afterAct).staging = s.staging := rfl
@[simp] theorem State.afterAct_recv : (s.afterAct).recv = s.recv := rfl
@[simp] theorem State.afterAct_core : (s.afterAct).core = s.core := rfl
@[simp] theorem State.afterAct_freeCtr : (s.afterAct).freeCtr = s.freeCtr := rfl
@[simp] theorem State.afterAct_cmdPort : (s.afterAct).cmdPort = s.cmdPort := rfl
@[simp] theorem State.afterAct_rspPort : (s.afterAct).rspPort = s.rspPort := rfl
@[simp] theorem State.afterAct_host : (s.afterAct).host = s.host.tail := rfl

/-! ### Taking and draining a byte -/

theorem State.takeWordByte_nil (got : List Byte) (h : s.cmdPort = []) : s.takeWordByte got = s := by
  simp [State.takeWordByte, h]

theorem State.takeWordByte_cons (got : List Byte) {b : Byte} {rest : List Byte} (h : s.cmdPort = b :: rest) :
    s.takeWordByte got = { s with cmdPort := rest, staging := [], recv := recvOfWordBytes (got ++ [b]) } := by
  simp [State.takeWordByte, h]

theorem State.takePayloadByte_nil (h : s.cmdPort = []) : s.takePayloadByte = s := by
  simp [State.takePayloadByte, h]

theorem State.takePayloadByte_cons {b : Byte} {rest : List Byte} (h : s.cmdPort = b :: rest) :
    s.takePayloadByte = { s with cmdPort := rest, staging := s.staging ++ [b] } := by
  simp [State.takePayloadByte, h]

theorem State.drainByte_cons (b : Byte) (more : List Byte) : s.drainByte (b :: more) =
    { s with rspPort := s.rspPort ++ [b], recv := if more = [] then .word [] else .respond more } := by
  cases more <;> simp [State.drainByte]

/-- Fewer than four bytes are no whole command word. -/
theorem recvOfWordBytes_short {got : List Byte} (h : got.length ≠ 4) : recvOfWordBytes got = .word got := by
  unfold recvOfWordBytes
  split
  · simp at h
  · rfl

theorem recvOfWordBytes_le32Bytes (w : Word32) : recvOfWordBytes (le32Bytes w) = .payload w := by
  simp [recvOfWordBytes, le32Bytes, le32_extract]

end Sys2Proof.Machine
end

