-- ==== Sys2Proof/Laws/Step.lean ====
section
/-! SUPPORT. What one step can do, said once: each command's outcomes, the moves of the engine, and the acts of the
outside world. -/

namespace Sys2Proof.Machine

/-! ### Commands -/

theorem phaseCause_eq_none {want : Phase} {s : State} (hw : want ≠ .error) :
    phaseCause want s = none ↔ s.phase = want := by
  unfold phaseCause
  split_ifs with h1 h2 <;> simp_all [eq_comm]

theorem phaseCause_error {want : Phase} {s : State} (h : s.phase = .error) :
    phaseCause want s = some .errorPhase := by
  simp [phaseCause, h]

theorem phaseCause_wrong {want : Phase} {s : State} (h : s.phase ≠ .error) (hw : s.phase ≠ want) :
    phaseCause want s = some .wrongPhase := by
  simp [phaseCause, h, hw]

/-- The checks let the effect through, or reject. -/
theorem guarded_eq (ok : Bool) (want : Phase) (effect : State → State) (s : State) :
    (ok = true ∧ phaseCause want s = none ∧ guarded ok want effect s = effect s) ∨
      ((ok && phaseCause want s == none) = false ∧ ∃ c, guarded ok want effect s = s.reject c) := by
  unfold guarded
  cases ok
  · exact .inr ⟨rfl, _, rfl⟩
  · cases h : phaseCause want s with
    | none => exact .inl ⟨rfl, rfl, by simp⟩
    | some c => exact .inr ⟨by simp, c, by simp⟩

/-- The state an accepted command leaves. -/
def acceptedState (i : Instr) (s : State) : State :=
  match i with
  | .init => s.startMessage.accept
  | .absorb block => (s.absorbBlock block).accept
  | .final tail => State.accept { s.absorbBlock (pad tail) with phase := .squeezing }
  | .squeeze => s.sendResponse false (squeeze s.lanes)

theorem exec_init (s : State) : exec .init s = .next s.startMessage.accept := rfl

theorem exec_absorb (block : List Byte) (s : State) : exec (.absorb block) s =
    .next (guarded (block.length == 136) .absorbing (fun s => (s.absorbBlock block).accept) s) := rfl

theorem exec_final (tail : List Byte) (s : State) : exec (.final tail) s =
    .next (guarded (tail.length ≤ 135) .absorbing
      (fun s => State.accept { s.absorbBlock (pad tail) with phase := .squeezing }) s) := rfl

theorem exec_squeeze (s : State) : exec .squeeze s =
    .next (guarded true .squeezing (fun s => s.sendResponse false (squeeze s.lanes)) s) := rfl

/-- Every command is accepted with its effect, or rejected. -/
theorem exec_cases (i : Instr) (s : State) :
    (acceptedIn i s = true ∧ exec i s = .next (acceptedState i s)) ∨
      (acceptedIn i s = false ∧ ∃ c, exec i s = .next (s.reject c)) := by
  cases i with
  | init => exact .inl ⟨rfl, rfl⟩
  | absorb block =>
    rw [exec_absorb]
    rcases guarded_eq (block.length == 136) .absorbing (fun s => (s.absorbBlock block).accept) s with
      ⟨h1, h2, h3⟩ | ⟨h1, c, h2⟩
    · exact .inl ⟨by simp only [acceptedIn, h1, h2]; rfl, by rw [h3, acceptedState]⟩
    · exact .inr ⟨h1, c, by rw [h2]⟩
  | final tail =>
    rw [exec_final]
    rcases guarded_eq (decide (tail.length ≤ 135)) .absorbing
      (fun s => State.accept { s.absorbBlock (pad tail) with phase := .squeezing }) s with ⟨h1, h2, h3⟩ | ⟨h1, c, h2⟩
    · exact .inl ⟨by simp only [acceptedIn, h1, h2]; rfl, by rw [h3, acceptedState]⟩
    · exact .inr ⟨h1, c, by rw [h2]⟩
  | squeeze =>
    rw [exec_squeeze]
    rcases guarded_eq true .squeezing (fun s => s.sendResponse false (squeeze s.lanes)) s with
      ⟨h1, h2, h3⟩ | ⟨h1, c, h2⟩
    · exact .inl ⟨by simp only [acceptedIn, h2]; rfl, by rw [h3, acceptedState]⟩
    · exact .inr ⟨by simpa [acceptedIn] using h1, c, by rw [h2]⟩

/-- Every command answers a next state. -/
theorem exec_next (i : Instr) (s : State) : ∃ t, exec i s = .next t := by
  rcases exec_cases i s with ⟨-, h⟩ | ⟨-, c, h⟩ <;> exact ⟨_, h⟩

/-- In which phase a command that is not INIT is accepted. -/
theorem acceptedIn_phase {i : Instr} {s : State} (h : acceptedIn i s = true) :
    match i with
    | .init => True
    | .absorb block => block.length = 136 ∧ s.phase = .absorbing
    | .final tail => tail.length ≤ 135 ∧ s.phase = .absorbing
    | .squeeze => s.phase = .squeezing := by
  cases i <;> simp only [acceptedIn, Bool.and_eq_true, beq_iff_eq, decide_eq_true_eq, phaseCause_eq_none, ne_eq,
    reduceCtorEq, not_false_eq_true] at h ⊢ <;> exact h

/-! ### The engine's moves -/

theorem serveFrame_cases (word : Word32) (s : State) :
    (∃ i, decodeFrame word s.staging = .ok i ∧ serveFrame word s = exec i s) ∨
      (∃ why, decodeFrame word s.staging = .error why ∧ serveFrame word s = .next (s.reject (.illegal why))) := by
  unfold serveFrame
  cases decodeFrame word s.staging with
  | ok i => exact .inl ⟨i, rfl, rfl⟩
  | error why => exact .inr ⟨why, rfl, rfl⟩

theorem serveFrame_next (word : Word32) (s : State) : ∃ t, serveFrame word s = .next t := by
  rcases serveFrame_cases word s with ⟨i, -, h⟩ | ⟨why, -, h⟩
  · rw [h]; exact exec_next i s
  · exact ⟨_, h⟩

theorem engineMove_word {s : State} {got : List Byte} (ready : Bool) (h : s.recv = .word got) :
    engineMove ready s = .next (s.takeWordByte got) := by
  simp only [engineMove, h]

theorem engineMove_take {s : State} {word : Word32} (ready : Bool) (h : s.recv = .payload word)
    (hlt : s.staging.length < payloadLength word) : engineMove ready s = .next s.takePayloadByte := by
  simp only [engineMove, h, hlt, if_true]

theorem engineMove_serve {s : State} {word : Word32} (ready : Bool) (h : s.recv = .payload word)
    (hle : payloadLength word ≤ s.staging.length) : engineMove ready s = serveFrame word s := by
  simp only [engineMove, h, Nat.not_lt.mpr hle, if_false]

theorem engineMove_respond {s : State} {pending : List Byte} (ready : Bool) (h : s.recv = .respond pending) :
    engineMove ready s = .next (if ready then s.drainByte pending else s) := by
  simp only [engineMove, h]

/-- When the engine moves, the step is its move in the state whose outside act is used up. -/
theorem step_of_engineMoves {s : State} {ready : Bool} (h : s.EngineMoves ready) :
    step s = engineMove ready s.afterAct := by
  obtain ⟨_, _, _, _, _, _, _, _, _, host⟩ := s
  cases host with
  | nil => simp only [State.EngineMoves] at h; subst h; rfl
  | cons a acts => cases a <;> simp only [State.EngineMoves] at h <;> subst h <;> rfl

/-- Every step is the engine's move, or the offer of a byte, or reset. -/
theorem step_acts (s : State) :
    (∃ ready, s.EngineMoves ready ∧ step s = engineMove ready s.afterAct) ∨
      (∃ b acts, s.host = .offer b :: acts ∧ step s = .next { s.afterAct with cmdPort := s.cmdPort ++ [b] }) ∨
      (∃ acts, s.host = .reset :: acts ∧ step s = .next s.afterAct.resetEvent) := by
  obtain ⟨_, _, _, _, _, _, _, _, _, host⟩ := s
  cases host with
  | nil => exact .inl ⟨true, rfl, rfl⟩
  | cons a acts =>
    cases a with
    | go => exact .inl ⟨true, rfl, rfl⟩
    | hold => exact .inl ⟨false, rfl, rfl⟩
    | offer b => exact .inr (.inl ⟨b, acts, rfl, rfl⟩)
    | reset => exact .inr (.inr ⟨acts, rfl, rfl⟩)

/-- What a step can do, guards included. `u` is the state whose outside act is used up. -/
theorem step_cases {s t : State} (h : step s = .next t) :
    (∃ got, s.recv = .word got ∧ t = s.afterAct.takeWordByte got) ∨
    (∃ word, s.recv = .payload word ∧ s.staging.length < payloadLength word ∧ t = s.afterAct.takePayloadByte) ∨
    (∃ i, s.Serves i ∧ acceptedIn i s = true ∧ t = acceptedState i s.afterAct) ∨
    ((∃ word, s.recv = .payload word ∧ payloadLength word ≤ s.staging.length) ∧ ∃ c, t = s.afterAct.reject c) ∨
    (∃ pending, s.recv = .respond pending ∧ t = s.afterAct.drainByte pending) ∨
    (∃ pending, s.recv = .respond pending ∧ t = s.afterAct) ∨
    (∃ b acts, s.host = .offer b :: acts ∧ t = { s.afterAct with cmdPort := s.cmdPort ++ [b] }) ∨
    (∃ acts, s.host = .reset :: acts ∧ t = s.afterAct.resetEvent) := by
  rcases step_acts s with ⟨ready, hm, hs⟩ | ⟨b, acts, hh, hs⟩ | ⟨acts, hh, hs⟩
  · rw [hs] at h
    cases hr : s.recv with
    | word got =>
      rw [engineMove_word (s := s.afterAct) ready hr, Host.Outcome.next.injEq] at h
      exact .inl ⟨got, rfl, h.symm⟩
    | payload word =>
      rcases Nat.lt_or_ge s.staging.length (payloadLength word) with hlt | hle
      · rw [engineMove_take (s := s.afterAct) ready hr hlt, Host.Outcome.next.injEq] at h
        exact .inr (.inl ⟨word, rfl, hlt, h.symm⟩)
      · rw [engineMove_serve (s := s.afterAct) ready hr hle] at h
        rcases serveFrame_cases word s.afterAct with ⟨i, hd, he⟩ | ⟨why, hd, he⟩
        · rw [he] at h
          rcases exec_cases i s.afterAct with ⟨ha, hx⟩ | ⟨-, c, hx⟩
          · rw [hx, Host.Outcome.next.injEq] at h
            exact .inr (.inr (.inl ⟨i, ⟨word, ready, hr, hle, hd, hm⟩, ha, h.symm⟩))
          · rw [hx, Host.Outcome.next.injEq] at h
            exact .inr (.inr (.inr (.inl ⟨⟨word, rfl, hle⟩, c, h.symm⟩)))
        · rw [he, Host.Outcome.next.injEq] at h
          exact .inr (.inr (.inr (.inl ⟨⟨word, rfl, hle⟩, _, h.symm⟩)))
    | respond pending =>
      rw [engineMove_respond (s := s.afterAct) ready hr, Host.Outcome.next.injEq] at h
      cases ready
      · exact .inr (.inr (.inr (.inr (.inr (.inl ⟨pending, rfl, h.symm⟩)))))
      · exact .inr (.inr (.inr (.inr (.inl ⟨pending, rfl, h.symm⟩))))
  · rw [hs, Host.Outcome.next.injEq] at h
    exact .inr (.inr (.inr (.inr (.inr (.inr (.inl ⟨b, acts, hh, h.symm⟩))))))
  · rw [hs, Host.Outcome.next.injEq] at h
    exact .inr (.inr (.inr (.inr (.inr (.inr (.inr ⟨acts, hh, h.symm⟩))))))

/-- Every step answers a next state. -/
theorem step_next (s : State) : ∃ t, step s = .next t := by
  rcases step_acts s with ⟨ready, -, hs⟩ | ⟨_, _, -, hs⟩ | ⟨_, -, hs⟩
  · rw [hs]
    unfold engineMove
    split
    · exact ⟨_, rfl⟩
    · split
      · exact ⟨_, rfl⟩
      · exact serveFrame_next _ _
    · exact ⟨_, rfl⟩
  · exact ⟨_, hs⟩
  · exact ⟨_, hs⟩

/-! ### Runs -/

theorem coreRun_succ {M : Host.Core} {s t : M.State} (n : Nat) (h : M.step s = .next t) :
    M.run (n + 1) s = M.run n t := by
  rw [Host.Core.run, h]

theorem run_zero (s : State) : run 0 s = .next s := rfl

theorem run_succ {s t : State} (n : Nat) (h : step s = .next t) : run (n + 1) s = run n t :=
  coreRun_succ (M := core) n h

/-- A run of `m + n` steps is a run of `m` steps and then one of `n`. -/
theorem run_add {s t : State} (m n : Nat) (h : run m s = .next t) : run (m + n) s = run n t := by
  induction m generalizing s with
  | zero => cases h; rw [Nat.zero_add]
  | succ m ih =>
    obtain ⟨u, hu⟩ := step_next s
    rw [run_succ m hu] at h
    rw [show m + 1 + n = (m + n) + 1 by omega, run_succ _ hu, ih h]

end Sys2Proof.Machine
end

