-- ==== Sys2Proof/Laws/Ports.lean ====
section
/-! SUPPORT. Runs of byte transfers with a host that neither stalls nor resets: the command word, the payload, and the
response (rules R64, R165). -/

namespace Sys2Proof.Machine

theorem afterAct_of_host_nil {s : State} (h : s.host = []) : s.afterAct = s := by
  obtain ⟨_, _, _, _, _, _, _, _, _, _⟩ := s
  simp only [State.afterAct] at h ⊢
  subst h; rfl

theorem engineMoves_of_host_nil {s : State} (h : s.host = []) : s.EngineMoves true := by
  simp [State.EngineMoves, h]

/-- With no act of the outside world the step is the engine's move. -/
theorem step_of_host_nil {s : State} (h : s.host = []) : step s = engineMove true s := by
  rw [step_of_engineMoves (engineMoves_of_host_nil h), afterAct_of_host_nil h]

theorem step_takes_wordByte {s : State} {got rest : List Byte} {b : Byte} (hh : s.host = []) (hr : s.recv = .word got)
    (hc : s.cmdPort = b :: rest) :
    step s = .next { s with cmdPort := rest, staging := [], recv := recvOfWordBytes (got ++ [b]) } := by
  rw [step_of_host_nil hh, engineMove_word true hr, State.takeWordByte_cons s got hc]

/-- Four steps take the command word. -/
theorem run_takes_word {s : State} {w : Word32} {rest : List Byte} (hh : s.host = []) (hr : s.recv = .word [])
    (hc : s.cmdPort = le32Bytes w ++ rest) :
    run 4 s = .next { s with recv := .payload w, staging := [], cmdPort := rest } := by
  let b (k : Nat) : Byte := w.extractLsb' k 8
  have h1 := step_takes_wordByte hh hr (b := b 0) (rest := b 8 :: b 16 :: b 24 :: rest) hc
  have h2 := step_takes_wordByte (got := [b 0]) (b := b 8) (rest := b 16 :: b 24 :: rest)
    (s := { s with cmdPort := b 8 :: b 16 :: b 24 :: rest, staging := [], recv := .word [b 0] }) hh rfl rfl
  have h3 := step_takes_wordByte (got := [b 0, b 8]) (b := b 16) (rest := b 24 :: rest)
    (s := { s with cmdPort := b 16 :: b 24 :: rest, staging := [], recv := .word [b 0, b 8] }) hh rfl rfl
  have h4 := step_takes_wordByte (got := [b 0, b 8, b 16]) (b := b 24) (rest := rest)
    (s := { s with cmdPort := b 24 :: rest, staging := [], recv := .word [b 0, b 8, b 16] }) hh rfl rfl
  refine (run_succ 3 h1).trans ((run_succ 2 h2).trans ((run_succ 1 h3).trans ((run_succ 0 h4).trans ?_)))
  rw [run_zero]
  simp only [List.cons_append, List.nil_append]
  rw [show recvOfWordBytes [b 0, b 8, b 16, b 24] = .payload w from recvOfWordBytes_le32Bytes w]

/-- One step a byte takes the payload. -/
theorem run_takes_payload {w : Word32} {rest : List Byte} (p : List Byte) {s : State} (hh : s.host = [])
    (hr : s.recv = .payload w) (hc : s.cmdPort = p ++ rest) (hl : s.staging.length + p.length ≤ payloadLength w) :
    run p.length s = .next { s with staging := s.staging ++ p, cmdPort := rest } := by
  induction p generalizing s with
  | nil =>
    obtain ⟨_, _, _, _, _, _, _, _, _, _⟩ := s
    simp only [List.nil_append] at hc
    subst hc
    simp [run_zero]
  | cons b p ih =>
    simp only [List.length_cons] at hl ⊢
    have h : step s = .next { s with staging := s.staging ++ [b], cmdPort := p ++ rest } := by
      rw [step_of_host_nil hh, engineMove_take true hr (by omega), State.takePayloadByte_cons s hc]; rfl
    have hrest := ih (s := { s with staging := s.staging ++ [b], cmdPort := p ++ rest }) hh hr rfl (by simp; omega)
    rw [run_succ _ h, hrest]
    simp

/-- One step a byte drains the response; then the engine is idle. -/
theorem run_drains (pending : List Byte) {s : State} (hh : s.host = []) (hr : s.recv = .respond pending)
    (hp : pending ≠ []) :
    run pending.length s = .next { s with recv := .word [], rspPort := s.rspPort ++ pending } := by
  induction pending generalizing s with
  | nil => exact absurd rfl hp
  | cons b more ih =>
    have h : step s = .next { s with recv := if more = [] then .word [] else .respond more, rspPort := s.rspPort ++ [b] } := by
      rw [step_of_host_nil hh, engineMove_respond true hr, if_pos rfl, State.drainByte_cons]
    rw [List.length_cons, run_succ _ h]
    by_cases hm : more = []
    · subst hm; rfl
    · have hrest := ih (s := { s with recv := if more = [] then .word [] else .respond more, rspPort := s.rspPort ++ [b] })
        hh (by simp [hm]) hm
      rw [hrest]; simp

/-- A checked frame leaves a response frame of four bytes, or of 36 for an accepted SQUEEZE, and leaves the ports and the
outside world alone. -/
theorem serveFrame_responds {word : Word32} {s t : State} (h : serveFrame word s = .next t) :
    ∃ frame, t.recv = .respond frame ∧ t.host = s.host ∧ t.cmdPort = s.cmdPort ∧ t.rspPort = s.rspPort ∧
      frame.length = if decodeFrame word s.staging = .ok .squeeze ∧ s.phase = .squeezing then 36 else 4 := by
  rcases serveFrame_cases word s with ⟨i, hd, he⟩ | ⟨why, hd, he⟩
  · rw [he] at h
    rcases exec_cases i s with ⟨ha, hx⟩ | ⟨ha, c, hx⟩
    · rw [hx, Host.Outcome.next.injEq] at h
      subst h
      have hp := acceptedIn_phase ha
      cases i with
      | init => exact ⟨_, rfl, rfl, rfl, rfl, by simp [hd, le32Bytes]⟩
      | absorb block => exact ⟨_, State.accept_recv _, by simp [acceptedState], by simp [acceptedState],
          by simp [acceptedState], by simp [hd, le32Bytes]⟩
      | final tail => exact ⟨_, State.accept_recv _, by simp [acceptedState], by simp [acceptedState],
          by simp [acceptedState], by simp [hd, le32Bytes]⟩
      | squeeze => exact ⟨_, State.sendResponse_recv .., rfl, rfl, rfl, by simp [hd, hp, le32Bytes, squeeze_length]⟩
    · rw [hx, Host.Outcome.next.injEq] at h
      subst h
      refine ⟨_, State.reject_recv .., rfl, rfl, rfl, ?_⟩
      have : ¬ (decodeFrame word s.staging = .ok .squeeze ∧ s.phase = .squeezing) := by
        rintro ⟨hi, hp⟩
        rw [hd] at hi
        cases hi
        simp [acceptedIn, phaseCause, hp] at ha
      simp [this, le32Bytes]
  · rw [he, Host.Outcome.next.injEq] at h
    subst h
    exact ⟨_, State.reject_recv .., rfl, rfl, rfl, by simp [hd, le32Bytes]⟩

/-- A complete legal frame gives its command to `exec`. -/
theorem step_serves {u t : State} {word : Word32} {i : Instr} (hh : u.host = []) (hr : u.recv = .payload word)
    (hl : payloadLength word ≤ u.staging.length) (hd : decodeFrame word u.staging = .ok i) (hx : exec i u = .next t) :
    step u = .next t := by
  rw [step_of_host_nil hh, engineMove_serve true hr hl, serveFrame, hd]
  exact hx

/-- An accepted command whose frame is at the front of the command port: its meaning, then its response drained. -/
theorem run_command {s t : State} {i : Instr} {frame rest : List Byte} (hi : s.recv = .word []) (hh : s.host = [])
    (hc : s.cmdPort = encode i ++ rest) (hl : i.payload.length = payloadLength (encodeWord i))
    (hd : decodeFrame (encodeWord i) i.payload = .ok i)
    (hx : exec i { s with recv := .payload (encodeWord i), staging := i.payload, cmdPort := rest } = .next t)
    (ht : t.host = []) (hf : t.recv = .respond frame) (hne : frame ≠ []) :
    run (4 + (i.payload.length + (1 + frame.length))) s =
      .next { t with recv := .word [], rspPort := t.rspPort ++ frame } := by
  rw [run_add 4 _ (run_takes_word (w := encodeWord i) (rest := i.payload ++ rest) hh hi
      (by rw [hc, encode, List.append_assoc]))]
  have hpay := run_takes_payload (w := encodeWord i) (rest := rest) i.payload
    (s := { s with recv := .payload (encodeWord i), staging := [], cmdPort := i.payload ++ rest }) hh rfl rfl
    (by simp [hl])
  rw [run_add _ _ hpay]
  have hstep : step { s with recv := .payload (encodeWord i), staging := [] ++ i.payload, cmdPort := rest } = .next t := by
    exact step_serves (i := i) hh rfl hl.symm.le hd hx
  rw [run_add 1 _ ((run_succ 0 hstep).trans (run_zero t))]
  exact run_drains frame ht hf hne

end Sys2Proof.Machine
end

