-- ==== Sys2Proof/Tests/Slice0.lean ====
section
/-! SUPPORT. Small tests with expected values from 95_test_vectors.md or worked out from the rules named, and for each
statement with hypotheses a concrete state and operands that meet all of them. -/

namespace Sys2Proof.Machine.Tests

set_option maxRecDepth 20000

/-- `n` zero bytes. -/
def zeros (n : Nat) : List Byte := List.replicate n 0

/-- An engine in a given phase whose frame has arrived whole. -/
def framed (phase : Phase) (reason : Reason) (word : Word32) (payload : List Byte) : State :=
  { State.reset with phase := phase, reason := reason, recv := .payload word, staging := payload }

/-- An idle engine in a given phase. -/
def idle (phase : Phase) (reason : Reason) : State := { State.reset with phase := phase, reason := reason }

/-- An engine with a response to send, an outside world that does `acts`, and a byte waiting on the command port. -/
def responding (pending : List Byte) (acts : List HostAct) : State :=
  { State.reset with recv := .respond pending, cmdPort := [0x01], host := acts }

/-- An idle engine with bytes offered on its command port. -/
def offered (phase : Phase) (reason : Reason) (bytes : List Byte) : State :=
  { idle phase reason with cmdPort := bytes }

/-- The response frame, the phase and the reason after a step. -/
def outcome (o : Host.Outcome State Fault Refusal) : Option (List Byte × Nat × Nat) :=
  match o with
  | .next t =>
    match t.recv with
    | .respond frame => some (frame, t.phase.value.toNat, t.reason.value.toNat)
    | _ => none
  | .fault _ => none
  | .refused _ => none

/-- The state after a step. -/
def after (o : Host.Outcome State Fault Refusal) (s : State) : State :=
  match o with
  | .next t => t
  | .fault _ => s
  | .refused _ => s

/-! ### WellFormed: an ill-formed term for each check -/

theorem test_wf_absorb_short : ¬ (Instr.absorb (zeros 135)).WellFormed := by decide
theorem test_wf_absorb_long : ¬ (Instr.absorb (zeros 137)).WellFormed := by decide
theorem test_wf_final_long : ¬ (Instr.final (zeros 136)).WellFormed := by decide
theorem test_wf_legal : Instr.init.WellFormed ∧ (Instr.absorb (zeros 136)).WellFormed ∧ (Instr.final []).WellFormed ∧
    (Instr.final (zeros 135)).WellFormed ∧ Instr.squeeze.WellFormed := by decide

/-! ### Decoding: frames written out from rules R43, R61, R62 (`OPC` first, then `LEN`, then `RSV`) -/

theorem test_decode_init : decode [0b00000001, 0b00000000, 0b00000000, 0b00000000] = .command .init [] := by decide
theorem test_decode_absorb : decode ([0b00000010, 0b10001000, 0b00000000, 0b00000000] ++ zeros 136) =
    .command (.absorb (zeros 136)) [] := by decide +kernel
theorem test_decode_final : decode [0b00000011, 0b00000011, 0b00000000, 0b00000000, 0x61, 0x62, 0x63, 0x04] =
    .command (.final [0x61, 0x62, 0x63]) [0x04] := by decide
theorem test_decode_squeeze : decode [0b00000100, 0b00000000, 0b00000000, 0b00000000] = .command .squeeze [] := by decide

/-- Class (b), (c), (d) of rule R65 and a truncated frame (rule R166). -/
theorem test_decode_rejects :
    decode [0xFF, 0x02, 0x00, 0x00, 0x78, 0x79, 0x01] = .illegal .reservedOpcode [0x01] ∧
    decode [0x01, 0x00, 0x01, 0x00] = .illegal .reservedBits [] ∧
    decode [0x01, 0x01, 0x00, 0x00, 0x7A] = .illegal .badLength [] ∧
    decode [0x03, 0x02, 0x00, 0x00, 0x61] = .truncated := by decide

/-! ### Tables and stages: V1 to V7, V9 -/

theorem test_rotl64 : rotl64 1 63 = 0x8000000000000000 ∧ rotl64 0x8000000000000000 1 = 1 ∧
    rotl64 0x8000000000000001 1 = 3 ∧ rotl64 0x0123456789ABCDEF 4 = 0x123456789ABCDEF0 ∧
    rotl64 0x0123456789ABCDEF 0 = 0x0123456789ABCDEF ∧ rotl64 0xFFFFFFFFFFFFFFFF 17 = 0xFFFFFFFFFFFFFFFF := by decide

/-- V2: the lanes of a block, and of the padded "abc". -/
theorem test_lanes_from_bytes :
    lanesFromBytes 17 (((zeros 136).set 0 0x01).set 8 0x02 |>.set 135 0x80) =
      ((Vector.replicate 17 0).set 0 1 |>.set 1 2 |>.set 16 0x8000000000000000) ∧
    lanesFromBytes 17 (pad [0x61, 0x62, 0x63]) =
      ((Vector.replicate 17 0).set 0 0x0000000006636261 |>.set 16 0x8000000000000000) := by decide +kernel

theorem test_theta : theta (zeroLanes.set 0 1) =
    #v[1, 1, 0, 0, 2, 0, 1, 0, 0, 2, 0, 1, 0, 0, 2, 0, 1, 0, 0, 2, 0, 1, 0, 0, 2] := by decide +kernel

theorem test_rho : (rho (Vector.replicate 25 1))[2] = 0x4000000000000000 ∧
    (rho (Vector.replicate 25 1))[8] = 0x0080000000000000 ∧ (rho (Vector.replicate 25 1))[24] = 0x4000 := by decide +kernel

theorem test_pi : pi (Vector.ofFn fun i => BitVec.ofNat 64 i.val) =
    #v[0, 6, 12, 18, 24, 3, 9, 10, 16, 22, 1, 7, 13, 19, 20, 4, 5, 11, 17, 23, 2, 8, 14, 15, 21] := by decide +kernel

theorem test_chi :
    chi (zeroLanes.set 2 1) = (zeroLanes.set 0 1).set 2 1 ∧
    chi (zeroLanes.set 0 0xFFFFFFFFFFFFFFFF) =
      (zeroLanes.set 0 0xFFFFFFFFFFFFFFFF).set 3 0xFFFFFFFFFFFFFFFF ∧
    chi ((zeroLanes.set 1 0xFFFFFFFFFFFFFFFF).set 2 0xFFFFFFFFFFFFFFFF) =
      ((zeroLanes.set 1 0xFFFFFFFFFFFFFFFF).set 2 0xFFFFFFFFFFFFFFFF).set 4 0xFFFFFFFFFFFFFFFF := by decide +kernel

theorem test_iota : iota zeroLanes 23 = zeroLanes.set 0 0x8000000080008008 := by decide +kernel

/-- V8: round 0 on `A[0] = 1`: lane 0 is 0, and some of the lanes listed there. -/
theorem test_round : (keccakRound (zeroLanes.set 0 1) 0)[0] = 0 ∧
    (keccakRound (zeroLanes.set 0 1) 0)[1] = 0x0000100000000000 ∧
    (keccakRound (zeroLanes.set 0 1) 0)[13] = 0x0000000000000202 ∧
    (keccakRound (zeroLanes.set 0 1) 0)[22] = 0x0000010000000004 := by decide +kernel

/-- V9: the tail bytes, the domain byte and the final bit, apart and together. -/
theorem test_pad : pad [] = ((zeros 136).set 0 0x06).set 135 0x80 ∧ pad (zeros 134) = ((zeros 136).set 134 0x06).set 135 0x80 ∧
    pad (zeros 135) = (zeros 136).set 135 0x86 := by decide +kernel

/-! ### The commands -/

/-- V10: INIT in every phase. -/
theorem test_init :
    outcome (step (framed .absorbing .none 0x00000001 [])) = some ([0x00, 0x00, 0x00, 0x00], 0, 0) ∧
    outcome (step (framed .squeezing .none 0x00000001 [])) = some ([0x00, 0x00, 0x00, 0x00], 0, 0) ∧
    outcome (step (framed .error (.rejected .wrongPhase) 0x00000001 [])) = some ([0x00, 0x00, 0x00, 0x00], 0, 0) := by
  decide +kernel

/-- V11: the response of ABSORB. -/
theorem test_absorb : outcome (step (framed .absorbing .none 0x00008802 (zeros 136))) =
    some ([0x00, 0x00, 0x00, 0x00], 0, 0) := by decide +kernel

/-- V12: the response of FINAL. -/
theorem test_final : outcome (step (framed .absorbing .none 0x00000303 [0x61, 0x62, 0x63])) =
    some ([0x02, 0x00, 0x00, 0x00], 1, 0) := by decide +kernel

/-- V13: SQUEEZE of the first row of V12: the digest of the empty message (W1) from its lanes 0 to 3. -/
theorem test_squeeze :
    outcome (exec .squeeze { idle .squeezing .none with
      lanes := (((zeroLanes.set 0 0x66D71EBFF8C6FFA7).set 1 0x62D661A05647C151).set 2 0xFA493BE44DFF80F5).set 3
        0x4A43F8804B0AD882 }) =
    some ([0x02, 0x00, 0x00, 0x00,
      0xA7, 0xFF, 0xC6, 0xF8, 0xBF, 0x1E, 0xD7, 0x66, 0x51, 0xC1, 0x47, 0x56, 0xA0, 0x61, 0xD6, 0x62,
      0xF5, 0x80, 0xFF, 0x4D, 0xE4, 0x3B, 0x49, 0xFA, 0x82, 0xD8, 0x0A, 0x4B, 0x80, 0xF8, 0x43, 0x4A], 1, 0) := by
  decide +kernel

/-- W2: the digest of "abc". -/
theorem test_sha3_abc : sha3_256 [0x61, 0x62, 0x63] =
    [0x3A, 0x98, 0x5D, 0xA7, 0x4F, 0xE2, 0x25, 0xB2, 0x04, 0x5C, 0x17, 0x2D, 0x6B, 0xD3, 0x90, 0xBD,
     0x85, 0x5F, 0x08, 0x6E, 0x3E, 0x9D, 0x52, 0x5B, 0x46, 0xBF, 0xE2, 0x45, 0x11, 0x43, 0x15, 0x32] := by decide +kernel

/-- V14: the rejections by encoding. -/
theorem test_reject_encoding :
    outcome (step (framed .absorbing .none 0x00000000 [])) = some ([0x05, 0x01, 0x00, 0x00], 2, 1) ∧
    outcome (step (framed .absorbing .none 0x00000005 [])) = some ([0x05, 0x01, 0x00, 0x00], 2, 1) ∧
    outcome (step (framed .absorbing .none 0x000002FF [0x78, 0x79])) = some ([0x05, 0x01, 0x00, 0x00], 2, 1) ∧
    outcome (step (framed .absorbing .none 0x00010001 [])) = some ([0x05, 0x02, 0x00, 0x00], 2, 2) ∧
    outcome (step (framed .absorbing .none 0x00000101 [0x7A])) = some ([0x05, 0x03, 0x00, 0x00], 2, 3) ∧
    outcome (step (framed .absorbing .none 0x00008702 (zeros 135))) = some ([0x05, 0x03, 0x00, 0x00], 2, 3) ∧
    outcome (step (framed .absorbing .none 0x00008803 (zeros 136))) = some ([0x05, 0x03, 0x00, 0x00], 2, 3) := by
  decide +kernel

/-- V14: the rejections by phase, and the encoding check before the phase check. -/
theorem test_reject_phase :
    outcome (step (framed .absorbing .none 0x00000004 [])) = some ([0x05, 0x04, 0x00, 0x00], 2, 4) ∧
    outcome (step (framed .squeezing .none 0x00008802 (zeros 136))) = some ([0x05, 0x04, 0x00, 0x00], 2, 4) ∧
    outcome (step (framed .squeezing .none 0x00000003 [])) = some ([0x05, 0x04, 0x00, 0x00], 2, 4) ∧
    outcome (step (framed .error (.rejected .wrongPhase) 0x00000004 [])) = some ([0x05, 0x05, 0x00, 0x00], 2, 5) ∧
    outcome (step (framed .error (.rejected .wrongPhase) 0x00000007 [])) = some ([0x05, 0x01, 0x00, 0x00], 2, 1) := by
  decide +kernel

/-- Reset from the middle of a frame (rules R160, R161). -/
theorem test_reset : after (step { framed .error (.rejected .errorPhase) 0x00008802 [0x01] with host := [.reset] })
    State.reset = { State.reset with core := freeCoreWork 0, freeCtr := 1 } := by
  rfl

/-- Rules R69, R70: lines of P2 and P6. -/
theorem test_assemble :
    assemble ["INIT            ; 01 00 00 00".toList, "FINAL 616263".toList, ".word 0x000002FF 7879 ; illegal".toList] =
      some [0x01, 0x00, 0x00, 0x00, 0x03, 0x03, 0x00, 0x00, 0x61, 0x62, 0x63, 0xFF, 0x02, 0x00, 0x00, 0x78, 0x79] := by
  decide +kernel

/-- A row of the opcode table staged in the reset state runs next. -/
theorem test_table_row_runs : outcome (step (State.reset.withFetchWord 32 0x00000003)) =
    some ([0x02, 0x00, 0x00, 0x00], 1, 0) := by decide +kernel

/-! ### Witnesses: states and operands that meet the hypotheses of each statement -/

theorem test_witness_DecodeOfEncodeIsTheCommand :
    Instr.init.WellFormed ∧ (Instr.absorb (zeros 136)).WellFormed ∧ (Instr.final []).WellFormed ∧
      (Instr.final (zeros 135)).WellFormed ∧ Instr.squeeze.WellFormed := by decide

theorem test_witness_EncodeOfDecodedCommandIsTheFrame :
    decode [0x01, 0x00, 0x00, 0x00, 0x04] = .command .init [0x04] ∧
      decode ([0x03, 0x87, 0x00, 0x00] ++ zeros 135) = .command (.final (zeros 135)) [] := by decide +kernel

theorem test_witness_FrameIsWordThenPayload :
    takeFrame [0x01, 0x00, 0x00, 0x00, 0x04] = some (0x00000001, [], [0x04]) ∧
      takeFrame ([0x07, 0xFF, 0x00, 0x00] ++ zeros 255) = some (0x0000FF07, zeros 255, []) := by decide +kernel

theorem test_witness_CommandLinesAssembleToTheirFrames :
    (zeros 136).length = 136 ∧ (zeros 1 ≠ [] ∧ (zeros 1).length ≤ 135) ∧ (zeros 135 ≠ [] ∧ (zeros 135).length ≤ 135) ∧
      (zeros 0).length ≠ 136 ∧ 135 < (zeros 136).length := by decide

/-- Each class of rule R142: no failed check, and each of the reasons 1 to 5. -/
theorem test_witness_ChecksAreMadeInOrder :
    (framed .absorbing .none 0x00000003 []).FrameReady 0x00000003 ∧
    (framed .absorbing .none 0x000002FF [0x78, 0x79]).FrameReady 0x000002FF ∧
    (framed .absorbing .none 0x00010001 []).FrameReady 0x00010001 ∧
    (framed .absorbing .none 0x00008803 (zeros 136)).FrameReady 0x00008803 ∧
    (framed .squeezing .none 0x00008703 (zeros 135)).FrameReady 0x00008703 ∧
    (framed .absorbing .none 0x00000004 []).FrameReady 0x00000004 ∧
    (framed .error (.rejected .wrongPhase) 0x00000004 []).FrameReady 0x00000004 ∧
    ∀ phase reason word payload, (framed phase reason word payload).EngineMoves true :=
  ⟨⟨rfl, rfl⟩, ⟨rfl, rfl⟩, ⟨rfl, rfl⟩, ⟨rfl, rfl⟩, ⟨rfl, rfl⟩, ⟨rfl, rfl⟩, ⟨rfl, rfl⟩, fun _ _ _ _ => rfl⟩

theorem test_witness_StepRunsTheDecodedCommand :
    (framed .absorbing .none 0x00000303 [0x61, 0x62, 0x63]).FrameReady 0x00000303 ∧
      (framed .absorbing .none 0x00000303 [0x61, 0x62, 0x63]).EngineMoves true ∧
      decode (le32Bytes 0x00000303 ++ [0x61, 0x62, 0x63]) = .command (.final [0x61, 0x62, 0x63]) [] :=
  ⟨⟨rfl, rfl⟩, rfl, by decide⟩

theorem test_witness_TableRowRunsNext : decodeTableWord 32 0x00000004 = some .squeeze ∧
    decodeTableWord 32 0x00008802 = some (.absorb (zeros 136)) := by decide +kernel

/-- An illegal word with payload and a byte after it, and a legal word with nothing after it. -/
theorem test_witness_FrameArrivesByItsLength :
    (offered .squeezing .none [0xFF, 0x02, 0x00, 0x00, 0x78, 0x79, 0x01]).Idle ∧
      (offered .squeezing .none [0xFF, 0x02, 0x00, 0x00, 0x78, 0x79, 0x01]).host = [] ∧
      ([0x78, 0x79] : List Byte).length = payloadLength 0x000002FF ∧
      (offered .squeezing .none [0xFF, 0x02, 0x00, 0x00, 0x78, 0x79, 0x01]).cmdPort =
        le32Bytes 0x000002FF ++ [0x78, 0x79] ++ [0x01] ∧
      ([] : List Byte).length = payloadLength 0x00000004 ∧
      (offered .squeezing .none [0x04, 0x00, 0x00, 0x00]).cmdPort = le32Bytes 0x00000004 ++ [] ++ [] := by
  refine ⟨rfl, rfl, ?_, ?_, ?_, ?_⟩ <;> decide

/-- An accepted SQUEEZE, and a rejected one. -/
theorem test_witness_EveryCommandCompletes :
    (offered .squeezing .none [0x04, 0x00, 0x00, 0x00, 0x01]).Idle ∧
      (offered .squeezing .none [0x04, 0x00, 0x00, 0x00, 0x01]).host = [] ∧
      ([] : List Byte).length = payloadLength 0x00000004 ∧
      (offered .squeezing .none [0x04, 0x00, 0x00, 0x00, 0x01]).cmdPort = le32Bytes 0x00000004 ++ [] ++ [0x01] ∧
      (offered .absorbing .none [0x04, 0x00, 0x00, 0x00, 0x01]).cmdPort = le32Bytes 0x00000004 ++ [] ++ [0x01] ∧
      decodeFrame 0x00000004 [] = .ok .squeeze := by
  refine ⟨rfl, rfl, ?_, ?_, ?_, rfl⟩ <;> decide

theorem test_witness_PortsAreFlowControlled :
    (responding [0x00] [.hold]).EngineMoves false ∧ (responding [0x00] []).EngineMoves true ∧
      (responding [0x00, 0x01] [.go]).EngineMoves true ∧
      (responding [0x00] [.hold, .hold, .go]).host = List.replicate 2 .hold ++ [.go] ∧
      (responding [0x00] [.offer 0x02]).host = .offer 0x02 :: [] ∧
      step (responding [0x00] [.offer 0x02]) =
        .next { responding [0x00] [] with cmdPort := [0x01, 0x02] } ∧
      step { idle .absorbing .none with cmdPort := [0x01] } = .next { idle .absorbing .none with recv := .word [0x01] } ∧
      step { framed .absorbing .none 0x00000103 [] with cmdPort := [0x61] } =
        .next (framed .absorbing .none 0x00000103 [0x61]) :=
  ⟨rfl, rfl, rfl, rfl, rfl, rfl, rfl, rfl⟩

/-- Inside the command word, and with one payload byte missing. -/
theorem test_witness_TruncatedFrameWaits :
    ({ State.reset with recv := .word [0x03, 0x02, 0x00], host := [.go, .hold] } : State).Starved ∧
      (∀ a ∈ [HostAct.go, HostAct.hold], a = .go ∨ a = .hold) ∧
      ({ framed .absorbing .none 0x00000203 [0x61] with host := [.offer 0x62] } : State).Starved ∧
      ({ framed .absorbing .none 0x00000203 [0x61] with host := [.offer 0x62] } : State).host = [.offer 0x62] ∧
      ({ framed .absorbing .none 0x00000203 [0x61] with host := [.offer 0x62] } : State).host.head? ≠ some .reset ∧
      [(0x61 : Byte)].length < payloadLength 0x00000203 := by
  refine ⟨⟨rfl, trivial⟩, by decide, ⟨rfl, ?_⟩, rfl, by decide, by decide⟩
  show [(0x61 : Byte)].length < payloadLength 0x00000203
  decide

theorem test_witness_ResetInstallsTheResetValues :
    ({ framed .error (.rejected .errorPhase) 0x00008802 [0x01] with host := [.reset, .go] } : State).host =
      .reset :: [.go] := rfl

theorem test_witness_ResetForgetsTheFrame :
    (responding [0x02, 0x00] [.reset]).host = [.reset] ∧ (responding [0x02, 0x00] [.reset]).cmdPort = 0x01 :: [] :=
  ⟨rfl, rfl⟩

theorem test_witness_AfterResetAsAfterInit : (idle .squeezing .none).host = [] := rfl

/-- Words of each opcode whose reserved bits, length, or neither is wrong (the four command statements). -/
theorem test_witness_words_of_each_opcode :
    (0x00000001 : Word32).toNat % 256 = 1 ∧ (0x00010001 : Word32).toNat % 256 = 1 ∧ (0x00000101 : Word32).toNat % 256 = 1 ∧
    (0x00008802 : Word32).toNat % 256 = 2 ∧ (0x00008702 : Word32).toNat % 256 = 2 ∧
    (0x00008703 : Word32).toNat % 256 = 3 ∧ (0x00008803 : Word32).toNat % 256 = 3 ∧
    (0x00000004 : Word32).toNat % 256 = 4 ∧ (0x00000104 : Word32).toNat % 256 = 4 := by decide

theorem test_witness_AbsorbXorsTheBlockAndPermutes :
    (zeros 136).length = 136 ∧ (idle .squeezing .none).phase = .squeezing ∧
      (idle .error (.rejected .wrongPhase)).phase = .error ∧ (idle .absorbing .none).phase = .absorbing ∧
      (idle .absorbing .none).ReasonMatchesPhase := by
  refine ⟨rfl, rfl, rfl, rfl, ?_⟩
  simp [State.ReasonMatchesPhase, idle]

theorem test_witness_FinalPadsTheTailAndPermutes :
    (zeros 0).length ≤ 135 ∧ (zeros 135).length ≤ 135 ∧ (idle .squeezing .none).phase = .squeezing ∧
      (idle .error (.rejected .wrongPhase)).phase = .error ∧ (idle .absorbing .none).phase = .absorbing ∧
      (idle .absorbing .none).ReasonMatchesPhase := by
  refine ⟨by decide, by decide, rfl, rfl, rfl, ?_⟩
  simp [State.ReasonMatchesPhase, idle]

theorem test_witness_SqueezeAnswersTheDigest :
    (idle .absorbing .none).phase = .absorbing ∧ (idle .error (.rejected .wrongPhase)).phase = .error ∧
      (idle .squeezing .none).phase = .squeezing ∧ (idle .squeezing .none).ReasonMatchesPhase := by
  refine ⟨rfl, rfl, rfl, ?_⟩
  simp [State.ReasonMatchesPhase, idle]

theorem test_witness_CommandsLeaveThePortsAlone :
    acceptedIn .squeeze (idle .absorbing .none) = false ∧ acceptedIn (.absorb (zeros 135)) (idle .absorbing .none) = false ∧
      acceptedIn (.final []) (idle .error (.rejected .wrongPhase)) = false := by decide

/-- An accepted SQUEEZE, a rejected one, and an illegal word. -/
theorem test_witness_ResponseWordReportsTheOutcome :
    (∃ t, serveFrame 0x00000004 (framed .squeezing .none 0x00000004 []) = .next t) ∧
      (∃ t, serveFrame 0x00000004 (framed .absorbing .none 0x00000004 []) = .next t) ∧
      ∃ t, serveFrame 0x00000000 (framed .absorbing .none 0x00000000 []) = .next t :=
  ⟨serveFrame_next _ _, serveFrame_next _ _, serveFrame_next _ _⟩

theorem test_witness_OnlyTheseOperationsTouchTheLanes :
    ∃ t, step (framed .absorbing .none 0x00008802 (zeros 136)) = .next t := step_next _

/-- INIT from SQUEEZING, FINAL, a rejection, and reset change `PHASE`. -/
theorem test_witness_OnlyTheseOperationsWritePhase :
    (∃ t, step (framed .squeezing .none 0x00000001 []) = .next t ∧ t.phase ≠ .squeezing) ∧
    (∃ t, step (framed .absorbing .none 0x00000003 []) = .next t ∧ t.phase ≠ .absorbing) ∧
    (∃ t, step (framed .absorbing .none 0x00000004 []) = .next t ∧ t.phase ≠ .absorbing) ∧
    (∃ t, step { idle .squeezing .none with host := [.reset] } = .next t ∧ t.phase ≠ .squeezing) :=
  ⟨⟨_, rfl, by decide⟩, ⟨_, rfl, by decide +kernel⟩, ⟨_, rfl, by decide⟩, ⟨_, rfl, by decide⟩⟩

/-- INIT and reset leave ERROR. -/
theorem test_witness_OnlyInitOrResetLeavesError :
    (∃ t, step (framed .error (.rejected .wrongPhase) 0x00000001 []) = .next t ∧ t.phase ≠ .error) ∧
    (∃ t, step { idle .error (.rejected .wrongPhase) with host := [.reset] } = .next t ∧ t.phase ≠ .error) :=
  ⟨⟨_, rfl, by decide⟩, ⟨_, rfl, by decide⟩⟩

/-- A rejection, a second rejection, and INIT change `REASON`. -/
theorem test_witness_OnlyTheseOperationsWriteReason :
    (∃ t, step (framed .absorbing .none 0x00000004 []) = .next t ∧ t.reason ≠ .none) ∧
    (∃ t, step (framed .error (.rejected .wrongPhase) 0x00000004 []) = .next t ∧ t.reason ≠ .rejected .wrongPhase) ∧
    (∃ t, step (framed .error (.rejected .wrongPhase) 0x00000001 []) = .next t ∧ t.reason ≠ .rejected .wrongPhase) :=
  ⟨⟨_, rfl, by decide⟩, ⟨_, rfl, by decide⟩, ⟨_, rfl, by decide⟩⟩

theorem test_witness_ErrorAcceptsOnlyInit :
    (Instr.absorb (zeros 136)).WellFormed ∧ (Instr.final []).WellFormed ∧ Instr.squeeze.WellFormed ∧
      (idle .error (.rejected .wrongPhase)).phase = .error ∧ Instr.absorb (zeros 136) ≠ .init ∧ Instr.final [] ≠ .init ∧
      Instr.squeeze ≠ .init := by decide

/-- A digest-holding engine with a response to drain, and one in ERROR with a frame arriving. -/
theorem test_witness_InvariantIsKept :
    ({ idle .squeezing .none with
        lanes := absorbMessage zeroLanes [], recv := .respond [0x00, 0x00, 0x00] } : State).Inv ∧
      (framed .error (.rejected .wrongPhase) 0x00000203 [0x61]).Inv :=
  ⟨{ reasonMatchesPhase := by simp [State.ReasonMatchesPhase, idle]
     stagingFits := by decide
     recvWellFormed := ⟨by decide, [0x02], .inl ⟨0x00000002, by decide, by decide⟩⟩
     lanesHoldMessage := ⟨[], rfl⟩ },
   { reasonMatchesPhase := by simp [State.ReasonMatchesPhase, framed]
     stagingFits := by decide
     recvWellFormed := by show [(0x61 : Byte)].length ≤ payloadLength 0x00000203; decide
     lanesHoldMessage := trivial }⟩

theorem test_witness_DigestIsOfAMessage :
    ({ idle .squeezing .none with lanes := absorbMessage zeroLanes [] } : State).Inv ∧
      ({ idle .squeezing .none with lanes := absorbMessage zeroLanes [] } : State).phase = .squeezing :=
  ⟨{ reasonMatchesPhase := by simp [State.ReasonMatchesPhase, idle]
     stagingFits := by decide
     recvWellFormed := by show [].length < 4; decide
     lanesHoldMessage := ⟨[], rfl⟩ }, rfl⟩

theorem test_witness_WorkingStateIsUnobservable :
    (idle .absorbing .none).AgreesWith
        { idle .absorbing .none with core := freeCoreWork 7, freeCtr := 8, staging := [0x01] } ∧
      ∃ t, run 3 (idle .absorbing .none) = .next t :=
  ⟨{ lanes := rfl, phase := rfl, reason := rfl, recv := rfl, cmdPort := rfl, rspPort := rfl, host := rfl
     staging := fun word h => Recv.noConfusion (h : Recv.word [] = .payload word) },
   idle .absorbing .none, rfl⟩

/-- A message of one block and one byte, from an engine in ERROR. -/
theorem test_witness_ExpansionAnswersSha3OfTheMessage :
    let bytes := (expandSha3 (zeros 137)).flatMap encode ++ [0x04]
    (offered .error (.rejected .wrongPhase) bytes).Idle ∧ (offered .error (.rejected .wrongPhase) bytes).host = [] ∧
      (offered .error (.rejected .wrongPhase) bytes).cmdPort = (expandSha3 (zeros 137)).flatMap encode ++ [0x04] :=
  ⟨rfl, rfl, rfl⟩

/-- A message of one whole block, from the reset values. -/
theorem test_witness_MessageMayBeginAfterReset :
    let s := offered .absorbing .none ((expandSha3 (zeros 136)).tail.flatMap encode ++ [])
    s.Idle ∧ s.host = [] ∧ s.lanes = zeroLanes ∧ s.phase = .absorbing ∧ s.reason = .none ∧
      s.cmdPort = (expandSha3 (zeros 136)).tail.flatMap encode ++ [] := ⟨rfl, rfl, rfl, rfl, rfl, rfl⟩

theorem test_witness_EnginesShareNothing :
    let p : Platform := { engines := [State.reset, { idle .squeezing .none with cmdPort := [0x01] }] }
    p.engines[1]? = some { idle .squeezing .none with cmdPort := [0x01] } ∧
      step { idle .squeezing .none with cmdPort := [0x01] } = .next { idle .squeezing .none with recv := .word [0x01] } ∧
      p.stepEngine 1 =
        .next { engines := [State.reset, { idle .squeezing .none with recv := .word [0x01] }] } := ⟨rfl, rfl, rfl⟩

/-- Blocks, tails, byte strings, rotations, bit positions and lanes at the ends of their ranges (the statements about the
sponge, the byte map and the step mappings). -/
theorem test_witness_operand_ranges :
    (zeros 136).length = 136 ∧ (zeros 0).length ≤ 135 ∧ (zeros 135).length ≤ 135 ∧ (zeros 16).length = 8 * 2 ∧
      (0 ≤ 63 ∧ 63 ≤ 63) ∧ (0 < 64 ∧ 63 < 64) ∧ (1 : Fin 25) ≠ 0 := by decide

/-- Two states that agree on lanes 0 to 3 and differ elsewhere. -/
theorem test_witness_DigestBytesAreTheFirstLanes :
    (∀ i : Fin 4, (zeroLanes.set 4 1)[i.val] = zeroLanes[i.val]) ∧ zeroLanes.set 4 1 ≠ zeroLanes := by decide +kernel

end Sys2Proof.Machine.Tests
end

/-! PROOF. The byte map of the state and the core's 1600-bit vector (20_memory.md, rules R41, R42). -/

namespace Sys2Proof.Machine

/-! ### Lanes and bytes invert each other (rule R41) -/

theorem lanesFromBytes_getElem (n : Nat) (P : List Byte) (w : Nat) (h : w < n) :
    (lanesFromBytes n P)[w] = laneOfBytes P w := by
  simp [lanesFromBytes]

theorem bytesFromLanes_toList_getElem? {n : Nat} (L : Vector Lane n) (k : Nat) (h : k / 8 < n) :
    (bytesFromLanes L.toList)[k]? = some (laneByte L[k / 8] (k % 8)) := by
  simp [bytesFromLanes_getElem?, h]

theorem lanesFromBytes_bytesFromLanes {n : Nat} (L : Vector Lane n) :
    lanesFromBytes n (bytesFromLanes L.toList) = L := by
  ext1 w hw
  rw [lanesFromBytes_getElem _ _ _ hw]
  refine lane_eq_of_laneByte_eq fun b hb => ?_
  have hdiv : (8 * w + b) / 8 = w := by omega
  have hmod : (8 * w + b) % 8 = b := by omega
  rw [laneByte_laneOfBytes _ _ _ hb, List.getD_eq_getElem?_getD,
    bytesFromLanes_toList_getElem? L (8 * w + b) (by omega)]
  simp only [hdiv, hmod, Option.getD_some]

theorem bytesFromLanes_lanesFromBytes {n : Nat} {P : List Byte} (hP : P.length = 8 * n) :
    bytesFromLanes (lanesFromBytes n P).toList = P := by
  have hlen : (bytesFromLanes (lanesFromBytes n P).toList).length = P.length := by
    simp [bytesFromLanes_length, hP]
  refine List.ext_getElem? fun k => ?_
  by_cases hk : k < P.length
  · rw [bytesFromLanes_toList_getElem? _ k (by omega), lanesFromBytes_getElem,
      laneByte_laneOfBytes _ _ _ (Nat.mod_lt k (by decide)), Nat.div_add_mod, List.getD_eq_getElem _ _ hk,
      List.getElem?_eq_getElem hk]
  · rw [List.getElem?_eq_none (by omega), List.getElem?_eq_none (by omega)]

/-- Settles O43: the bytes listed lane by lane are the state bytes, and a lane is determined by its eight bytes. -/
theorem stateBytesAreLittleEndian : Obligations.StateBytesAreLittleEndian :=
  ⟨fun _ _ => rfl, fun A k => bytesFromLanes_toList_getElem? A k.val (by omega),
    fun _ L => lanesFromBytes_bytesFromLanes L, fun _ _ hP => bytesFromLanes_lanesFromBytes hP⟩

/-! ### The flattened state (rule R42) -/

theorem flatten_extractLsb'_lane (A : Lanes) (i : Nat) (h : i < 25) : (flatten A).extractLsb' (64 * i) 64 = A[i] := by
  refine BitVec.eq_of_getLsbD_eq fun j hj => ?_
  have hdiv : (64 * i + j) / 64 = i := by omega
  have hmod : (64 * i + j) % 64 = j := by omega
  simp [hj, flatten_getLsbD A (64 * i + j) (by omega), hdiv, hmod]

theorem flatten_extractLsb'_byte (A : Lanes) (k : Fin 200) : (flatten A).extractLsb' (8 * k.val) 8 = stateByte A k := by
  refine BitVec.eq_of_getLsbD_eq fun j hj => ?_
  have hdiv : (8 * k.val + j) / 64 = k.val / 8 := by omega
  have hmod : (8 * k.val + j) % 64 = 8 * (k.val % 8) + j := by omega
  rw [stateByte, laneByte_getLsbD _ _ _ hj, BitVec.getLsbD_extractLsb', flatten_getLsbD A (8 * k.val + j) (by omega)]
  simp only [hj, hdiv, hmod, decide_true, Bool.true_and]

theorem unflatten_flatten (A : Lanes) : unflatten (flatten A) = A := by
  ext1 i hi
  rw [unflatten_getElem _ _ hi, flatten_extractLsb'_lane A i hi]

theorem flatten_unflatten (S : BitVec 1600) : flatten (unflatten S) = S := by
  refine BitVec.eq_of_getLsbD_eq fun j hj => ?_
  rw [flatten_getLsbD _ _ hj, unflatten_getElem _ _ (by omega), BitVec.getLsbD_extractLsb', Nat.div_add_mod]
  simp [Nat.mod_lt]

/-- Settles O44: bit `j` of the vector is bit `j mod 64` of lane `j div 64`, read by lanes and by bytes. -/
theorem flatteningKeepsLanesAndBytes : Obligations.FlatteningKeepsLanesAndBytes := fun A =>
  ⟨fun i => flatten_extractLsb'_lane A i.val i.isLt, flatten_extractLsb'_byte A, unflatten_flatten A, flatten_unflatten⟩

end Sys2Proof.Machine

/-! PROOF. Frames on the two ports: how a frame is cut off a byte string, how long it takes to serve, and what its
response word reports (30_encoding.md, rules R60, R64, R66, R67, R169). -/

namespace Sys2Proof

/-! ### A frame is a word and its payload (rule R60) -/

theorem le32Bytes_eq_ofNat (w : Word32) : le32Bytes w =
    [BitVec.ofNat 8 w.toNat, BitVec.ofNat 8 (w.toNat / 256), BitVec.ofNat 8 (w.toNat / 65536),
      BitVec.ofNat 8 (w.toNat / 16777216)] := by
  simp [le32Bytes, BitVec.extractLsb', Nat.shiftRight_eq_div_pow]

theorem takeFrame_consumed_length {bytes payload rest : List Byte} {w : Word32}
    (h : takeFrame bytes = some (w, payload, rest)) : bytes.length - rest.length = 4 + payloadLength w := by
  obtain ⟨rfl, hl⟩ := takeFrame_eq_some h
  simp only [List.length_append, le32Bytes_length, hl]
  omega

end Sys2Proof

namespace Sys2Proof.Machine

/-- Settles O3: a frame is cut off exactly where its bytes are those of the word and of `LEN` payload bytes, and `LEN`
is at most 255. -/
theorem frameIsWordThenPayload : Obligations.FrameIsWordThenPayload := by
  refine ⟨fun bytes payload rest word => ?_, fun bytes payload rest word h => ?_⟩
  · rw [takeFrame_eq_some_iff, le32Bytes_eq_ofNat, payloadLength_eq]
  · have hlen := takeFrame_consumed_length h
    have hmax := payloadLength_le word
    omega

/-! ### Serving a frame from its first byte to the end of its response (rules R64, R66, R169) -/

/-- One step a byte takes a frame whose payload is as long as its word says, whatever the word. -/
theorem run_takes_frame {s : State} {word : Word32} {payload rest : List Byte} (hi : s.Idle) (hh : s.host = [])
    (hl : payload.length = payloadLength word) (hc : s.cmdPort = le32Bytes word ++ payload ++ rest) :
    run (4 + payload.length) s = .next { s with recv := .payload word, staging := payload, cmdPort := rest } := by
  rw [List.append_assoc] at hc
  have hpayload := run_takes_payload (w := word) (rest := rest) payload
    (s := { s with recv := .payload word, staging := [], cmdPort := payload ++ rest }) hh rfl rfl (by simp [hl])
  rw [run_add 4 _ (run_takes_word hh hi hc), hpayload, List.nil_append]

/-- With no act of the outside world, one step serves a complete frame. -/
theorem run_serves_frame {s t : State} {word : Word32} (hh : s.host = []) (hr : s.recv = .payload word)
    (hl : payloadLength word ≤ s.staging.length) (hs : serveFrame word s = .next t) : run 1 s = .next t := by
  refine (run_succ 0 ?_).trans (run_zero t)
  rw [step_of_host_nil hh, engineMove_serve true hr hl, hs]

/-- Settles O17: the frame is taken, served and answered, one run after another. -/
theorem everyCommandCompletes : Obligations.EveryCommandCompletes := by
  intro s word payload rest hi hh hl hc
  obtain ⟨t, ht⟩ := serveFrame_next word { s with recv := .payload word, staging := payload, cmdPort := rest }
  obtain ⟨frame, hrecv, hhost, hcmd, hrsp, hlen⟩ := serveFrame_responds ht
  have hne : frame ≠ [] := by
    rintro rfl
    rw [List.length_nil] at hlen
    split at hlen <;> contradiction
  have htake := run_takes_frame hi hh hl hc
  have hserve := run_serves_frame (s := { s with recv := .payload word, staging := payload, cmdPort := rest }) hh rfl
    hl.ge ht
  have hdrain := run_drains frame (hhost.trans hh) hrecv hne
  refine ⟨t, frame, ht, hrecv, hcmd, ?_, hlen⟩
  rw [Nat.add_assoc, run_add _ _ htake, run_add _ _ hserve, hdrain, hrsp]

/-! ### The response word (rule R67) -/

section
variable (rej : Bool) (phase : Phase) (reason : Reason)

theorem responseWord_getLsbD (j : Nat) : (responseWord rej phase reason).getLsbD j =
    if j = 0 then rej else if j < 3 then phase.value.getLsbD (j - 1) else if j < 8 then false
    else reason.value.getLsbD (j - 8) := by
  rw [responseWord, BitVec.getLsbD_setWidth, BitVec.getLsbD_append, BitVec.getLsbD_append, BitVec.getLsbD_append]
  by_cases h0 : j = 0
  · simp [h0]
  by_cases h3 : j < 3
  · simp [h0, h3, show j < 32 by omega, show j - 1 < 2 by omega]
  by_cases h8 : j < 8
  · simp [h0, h3, h8, show ¬ j - 1 < 2 by omega, show j - 1 - 2 < 5 by omega]
  · have hout : reason.value.getLsbD (j - 8) = true → j < 32 := fun h => by
      have := BitVec.lt_of_getLsbD h
      omega
    simpa [h0, h3, h8, show ¬ j - 1 < 2 by omega, show ¬ j - 1 - 2 < 5 by omega, show j - 1 - 2 - 5 = j - 8 by omega]

theorem responseWord_rej : (responseWord rej phase reason).getLsbD 0 = rej := by
  rw [responseWord_getLsbD, if_pos rfl]

theorem responseWord_phase : (responseWord rej phase reason).extractLsb' 1 2 = phase.value := by
  refine BitVec.eq_of_getLsbD_eq fun i hi => ?_
  simp [responseWord_getLsbD, hi, show 1 + i < 3 by omega]

theorem responseWord_reserved : (responseWord rej phase reason).extractLsb' 3 5 = 0 := by
  refine BitVec.eq_of_getLsbD_eq fun i hi => ?_
  simp [responseWord_getLsbD, show 3 + i < 8 by omega]

theorem responseWord_reason : (responseWord rej phase reason).extractLsb' 8 8 = reason.value := by
  refine BitVec.eq_of_getLsbD_eq fun i hi => ?_
  simp [responseWord_getLsbD, hi, show ¬ 8 + i < 3 by omega]

theorem responseWord_high : (responseWord rej phase reason).extractLsb' 16 16 = 0 := by
  refine BitVec.eq_of_getLsbD_eq fun i hi => ?_
  have hout := BitVec.getLsbD_of_ge reason.value (16 + i - 8) (by omega)
  simp [responseWord_getLsbD, show ¬ 16 + i < 3 by omega, show ¬ 16 + i < 8 by omega, hout]

end

/-- The answer to an accepted command reports the state it leaves, with `REJ` clear. -/
theorem acceptedState_recv (i : Instr) (s : State) : ∃ digest, (acceptedState i s).recv =
    .respond (le32Bytes (responseWord false (acceptedState i s).phase (acceptedState i s).reason) ++ digest) := by
  cases i with
  | init => exact ⟨[], rfl⟩
  | absorb block => exact ⟨[], rfl⟩
  | final tail => exact ⟨[], rfl⟩
  | squeeze => exact ⟨squeeze s.lanes, rfl⟩

/-- The answer to a frame reports the state the frame leaves, and `REJ` is set unless the frame is an accepted
command. -/
theorem serveFrame_reports {word : Word32} {s t : State} (h : serveFrame word s = .next t) : ∃ rej digest,
    t.recv = .respond (le32Bytes (responseWord rej t.phase t.reason) ++ digest) ∧
      (rej = true ↔ ¬ ∃ i, decodeFrame word s.staging = .ok i ∧ acceptedIn i s = true) := by
  rcases serveFrame_cases word s with ⟨i, hd, he⟩ | ⟨why, hd, he⟩
  · rcases exec_cases i s with ⟨ha, hx⟩ | ⟨ha, c, hx⟩
    · rw [he, hx, Host.Outcome.next.injEq] at h
      subst h
      obtain ⟨digest, hrecv⟩ := acceptedState_recv i s
      exact ⟨false, digest, hrecv, by simp [hd, ha]⟩
    · rw [he, hx, Host.Outcome.next.injEq] at h
      subst h
      exact ⟨true, [], rfl, by simp [hd, ha]⟩
  · rw [he, Host.Outcome.next.injEq] at h
    subst h
    exact ⟨true, [], rfl, by simp [hd]⟩

/-- Settles O25: the answer's word is the response word of the state left, and its bytes after the word are what the
length of a response leaves beside four. -/
theorem responseWordReportsTheOutcome : Obligations.ResponseWordReportsTheOutcome := by
  intro word s t h
  obtain ⟨rej, digest, hrecv, hrej⟩ := serveFrame_reports h
  obtain ⟨frame, hframe, -, -, -, hlen⟩ := serveFrame_responds h
  obtain rfl : frame = _ := Recv.respond.inj (hframe.symm.trans hrecv)
  rw [List.length_append, le32Bytes_length] at hlen
  refine ⟨responseWord rej t.phase t.reason, digest, hrecv, by rwa [responseWord_rej], responseWord_phase ..,
    responseWord_reserved .., responseWord_reason .., responseWord_high .., ?_⟩
  split_ifs at hlen ⊢ <;> omega

end Sys2Proof.Machine

/-! PROOF. The rotation of a lane and the iota step (40_keccak_permutation.md, rules R81, R88). -/

namespace Sys2Proof.Machine

/-! ### Rotation (rule R81) -/

@[simp] theorem rotl64_zero (a : Lane) : rotl64 a 0 = a := rfl

/-- On the offsets of rule R81 the model's rotation is the library's. -/
theorem rotl64_eq_rotateLeft (a : Lane) {n : Nat} (hn : n ≤ 63) : rotl64 a n = a.rotateLeft n := by
  rw [BitVec.rotateLeft_def, Nat.mod_eq_of_lt (by omega)]
  by_cases h : n = 0
  · subst h
    simp [BitVec.ushiftRight_eq_zero]
  · rw [rotl64, if_neg h]

/-- The bits shifted down already fit in a lane, so reducing the whole union loses none of them. -/
theorem rotl64_toNat (a : Lane) {n : Nat} (hn : n ≤ 63) :
    (rotl64 a n).toNat = if n = 0 then a.toNat else (a.toNat <<< n ||| a.toNat >>> (64 - n)) % 2 ^ 64 := by
  by_cases h : n = 0
  · rw [if_pos h, h, rotl64_zero]
  · have hfits : a.toNat >>> (64 - n) < 2 ^ 64 := (Nat.shiftRight_le _ _).trans_lt a.isLt
    rw [if_neg h, rotl64_eq_rotateLeft a hn, BitVec.toNat_rotateLeft, Nat.mod_eq_of_lt (by omega : n < 64),
      Nat.or_mod_two_pow, Nat.mod_eq_of_lt hfits]

/-- The low `n` bits come round from the top; every other bit moves up by `n`. -/
theorem rotl64_getLsbD (a : Lane) {n j : Nat} (hn : n ≤ 63) (hj : j < 64) :
    (rotl64 a n).getLsbD j = a.getLsbD ((j + 64 - n) % 64) := by
  rw [rotl64_eq_rotateLeft a hn, BitVec.getLsbD_rotateLeft, Nat.mod_eq_of_lt (by omega : n < 64)]
  by_cases h : j < n
  · have hpos : (j + 64 - n) % 64 = 64 - n + j := by omega
    simp [h, hpos]
  · have hpos : (j + 64 - n) % 64 = j - n := by omega
    simp [h, hj, hpos]

/-- Settles O45: the rotation is the library's, whose value and bits are known. -/
theorem rotationMovesBitsLeft : Obligations.RotationMovesBitsLeft :=
  fun a _ hn => ⟨rotl64_toNat a hn, fun _ hj => rotl64_getLsbD a hn hj⟩

/-! ### Iota (rule R88) -/

/-- Settles O49: lane `i` after iota, for `i = 0` and for every other `i`. -/
theorem iotaChangesLaneZeroOnly : Obligations.IotaChangesLaneZeroOnly := fun A r =>
  ⟨iota_getElem A r 0 (by decide), fun i hi =>
    (iota_getElem A r i.val i.isLt).trans (if_neg (Fin.val_ne_zero_iff.mpr hi))⟩

end Sys2Proof.Machine

/-! PROOF. The sponge commands: their words, the checks and the effect of each, and the function they compute
(41_sponge_commands.md, rules R110 to R118). -/

namespace Sys2Proof

/-! ### The words of the commands (rules R61, R62) -/

theorem commandWord_eq_le32 (opc len : Byte) : commandWord opc len = le32 opc len 0 0 := rfl

/-- A legal command word travels as its opcode, its length and two zero bytes. -/
theorem le32Bytes_commandWord (opc len : Byte) : le32Bytes (commandWord opc len) = [opc, len, 0, 0] := by
  rw [commandWord_eq_le32, le32Bytes_le32]

theorem encode_init : encode .init = [0x01, 0x00, 0x00, 0x00] := by
  rw [encode, encodeWord, le32Bytes_commandWord, Instr.payload, List.append_nil]

theorem encode_absorb (block : List Byte) : encode (.absorb block) = [0x02, 0x88, 0x00, 0x00] ++ block := by
  rw [encode, encodeWord, le32Bytes_commandWord, Instr.payload]

theorem encode_final (tail : List Byte) :
    encode (.final tail) = [0x03, BitVec.ofNat 8 tail.length, 0x00, 0x00] ++ tail := by
  rw [encode, encodeWord, le32Bytes_commandWord, Instr.payload]

theorem encode_squeeze : encode .squeeze = [0x04, 0x00, 0x00, 0x00] := by
  rw [encode, encodeWord, le32Bytes_commandWord, Instr.payload, List.append_nil]

/-- A word with a defined opcode is rejected for its reserved bits, then for its length, and for nothing else. -/
theorem decodeFrame_of_opcode (op : Opcode) {word : Word32} (payload : List Byte) (h : word.toNat % 256 = op.field) :
    decodeFrame word payload =
      if word.toNat / 65536 ≠ 0 then .error .reservedBits
      else if ¬ op.allowsLength (word.toNat / 256 % 256) then .error .badLength else .ok (op.command payload) := by
  have hop : Opcode.ofField (opcField word) = some op := ofField_eq_some.mpr ((opcField_toNat word).trans h)
  rw [decodeFrame_eq, hop]
  simp only [ite_not]

end Sys2Proof

namespace Sys2Proof.Machine

/-! ### The checks of a command's meaning (rule R142) -/

section
variable {want : Phase} {s : State} (effect : State → State)

theorem guarded_of_phase (hw : want ≠ .error) (h : s.phase = want) : guarded true want effect s = effect s := by
  rw [guarded, if_pos rfl, (phaseCause_eq_none hw).mpr h]

theorem guarded_wrongPhase (he : s.phase ≠ .error) (hw : s.phase ≠ want) :
    guarded true want effect s = s.reject .wrongPhase := by
  rw [guarded, if_pos rfl, phaseCause_wrong he hw]

theorem guarded_errorPhase (h : s.phase = .error) : guarded true want effect s = s.reject .errorPhase := by
  rw [guarded, if_pos rfl, phaseCause_error h]

end

theorem exec_absorb_of_length {block : List Byte} (hb : block.length = 136) (s : State) : exec (.absorb block) s =
    .next (guarded true .absorbing (fun s => (s.absorbBlock block).accept) s) := by
  rw [exec_absorb, beq_iff_eq.mpr hb]

theorem exec_final_of_length {tail : List Byte} (ht : tail.length ≤ 135) (s : State) : exec (.final tail) s =
    .next (guarded true .absorbing
      (fun s => State.accept { s.absorbBlock (pad tail) with phase := .squeezing }) s) := by
  rw [exec_final, decide_eq_true ht]

/-! ### Absorbing a block (rules R41, R112) -/

theorem xorBlock_eq_lanesFromBytes (A : Lanes) (P : List Byte) : xorBlock A P = Vector.ofFn fun i =>
    if h : i.val < 17 then A[i] ^^^ (lanesFromBytes 17 P)[i.val] else A[i] := by
  ext1 i hi
  rw [xorBlock_getElem _ _ _ hi, Vector.getElem_ofFn]
  split_ifs with h
  · rw [lanesFromBytes_getElem _ _ _ h]; rfl
  · rfl

theorem absorb_eq_lanesFromBytes (A : Lanes) (P : List Byte) :
    absorb A P = keccakF (Vector.ofFn fun i =>
      if h : i.val < 17 then A[i] ^^^ (lanesFromBytes 17 P)[i.val] else A[i]) := by
  rw [absorb, xorBlock_eq_lanesFromBytes]

/-- Settles O39: a lane of the block is its eight bytes, each moved to its place. -/
theorem absorbXorsSeventeenWords : Obligations.AbsorbXorsSeventeenWords := by
  intro A P _
  simp only [absorb, xorBlock, laneOfBytes, Nat.mul_zero, Nat.add_zero, BitVec.shiftLeft_zero, Nat.reduceMul]

/-! ### INIT (rule R115) -/

theorem zeroLanes_getElem (i : Fin 25) : zeroLanes[i] = 0 := by
  simp [zeroLanes]

/-- Settles O19: INIT has no phase check, and what it leaves depends on the ports, the host and the core only, so a
second INIT finds its own values in place. -/
theorem initStartsAMessageInEveryPhase : Obligations.InitStartsAMessageInEveryPhase := by
  refine ⟨encode_init, fun word payload h => ?_, fun s => ?_⟩
  · simpa [Opcode.allowsLength, Opcode.command] using decodeFrame_of_opcode .init payload h
  · exact ⟨s.startMessage.accept, exec_init s, zeroLanes_getElem, rfl, rfl,
      congrArg Recv.respond acceptedWord_absorbing, exec_init _, rfl, rfl, rfl, rfl⟩

/-! ### ABSORB and FINAL (rules R116, R117) -/

/-- Settles O20: the guard answers each phase, and the effect is the absorption of the block in lanes. -/
theorem absorbXorsTheBlockAndPermutes : Obligations.AbsorbXorsTheBlockAndPermutes := by
  refine ⟨encode_absorb, fun word payload h => ?_, fun s block hb => ?_⟩
  · simpa [Opcode.allowsLength, Opcode.command] using decodeFrame_of_opcode .absorb payload h
  rw [exec_absorb_of_length hb]
  refine ⟨fun hp => ?_, fun hp => ?_, fun hp hr => ⟨(s.absorbBlock block).accept, ?_, ?_⟩⟩
  · rw [guarded_wrongPhase _ (by simp [hp]) (by simp [hp])]
  · rw [guarded_errorPhase _ hp]
  · rw [guarded_of_phase _ (by decide) hp]
  · have hreason : s.reason = .none := reason_none_of_phase hr (by simp [hp])
    simp [hp, hreason, acceptedWord_absorbing, absorb_eq_lanesFromBytes]

/-- Settles O21: as ABSORB with the padded tail, and SQUEEZING reported in the response. -/
theorem finalPadsTheTailAndPermutes : Obligations.FinalPadsTheTailAndPermutes := by
  refine ⟨fun tail _ => encode_final tail, fun word payload h => ?_, fun s tail ht => ?_⟩
  · simpa [Opcode.allowsLength, Opcode.command] using decodeFrame_of_opcode .final payload h
  rw [exec_final_of_length ht]
  refine ⟨fun hp => ?_, fun hp => ?_, fun hp hr =>
    ⟨State.accept { s.absorbBlock (pad tail) with phase := .squeezing }, ?_, ?_⟩⟩
  · rw [guarded_wrongPhase _ (by simp [hp]) (by simp [hp])]
  · rw [guarded_errorPhase _ hp]
  · rw [guarded_of_phase _ (by decide) hp]
  · have hreason : s.reason = .none := reason_none_of_phase hr (by simp [hp])
    simp [hreason, acceptedWord_squeezing, absorb_eq_lanesFromBytes]

/-! ### SQUEEZE and the digest (rules R114, R118) -/

theorem exec_squeeze_of_phase {s : State} (h : s.phase = .squeezing) :
    exec .squeeze s = .next (s.sendResponse false (squeeze s.lanes)) := by
  rw [exec_squeeze, guarded_of_phase _ (by decide) h]

/-- Settles O22: the effect only sends a response, so the command finds the same phase and lanes when it is repeated. -/
theorem squeezeAnswersTheDigest : Obligations.SqueezeAnswersTheDigest := by
  refine ⟨encode_squeeze, fun word payload h => ?_, fun s => ⟨fun hp => ?_, fun hp => ?_, fun hp hr => ?_⟩⟩
  · simpa [Opcode.allowsLength, Opcode.command] using decodeFrame_of_opcode .squeeze payload h
  · rw [exec_squeeze, guarded_wrongPhase _ (by simp [hp]) (by simp [hp])]
  · rw [exec_squeeze, guarded_errorPhase _ hp]
  · have hreason : s.reason = .none := reason_none_of_phase hr (by simp [hp])
    refine ⟨_, exec_squeeze_of_phase hp, ?_, rfl, rfl, rfl, rfl, rfl, rfl, rfl, exec_squeeze_of_phase hp⟩
    rw [State.sendResponse_recv, hp, hreason, acceptedWord_squeezing, squeeze]

theorem squeeze_getElem? (A : Lanes) (w : Fin 4) (b : Fin 8) :
    (squeeze A)[8 * w.val + b.val]? = some (A[w.val].extractLsb' (8 * b.val) 8) := by
  have hlane : [A[0], A[1], A[2], A[3]][w.val]? = some A[w.val] := by
    fin_cases w <;> rfl
  have hdiv : (8 * w.val + b.val) / 8 = w.val := by omega
  have hmod : (8 * w.val + b.val) % 8 = b.val := by omega
  rw [squeeze, bytesFromLanes_getElem?, hdiv, hmod, hlane, Option.map_some, laneByte]

theorem squeeze_congr {A B : Lanes} (h : ∀ i : Fin 4, A[i.val] = B[i.val]) : squeeze A = squeeze B := by
  have h0 : A[0] = B[0] := h 0
  have h1 : A[1] = B[1] := h 1
  have h2 : A[2] = B[2] := h 2
  have h3 : A[3] = B[3] := h 3
  rw [squeeze, squeeze, h0, h1, h2, h3]

/-- Settles O42: the digest lists the bytes of four lanes. -/
theorem digestBytesAreTheFirstLanes : Obligations.DigestBytesAreTheFirstLanes :=
  ⟨squeeze_length, squeeze_getElem?, fun _ _ h => squeeze_congr h⟩

/-! ### Padding (rule R113) -/

/-- The block of `pad` before its final bit is set: the tail, the domain byte, zeros. -/
def markedTail (T : List Byte) : List Byte := (T ++ List.replicate (136 - T.length) 0).set T.length DOMAIN_BYTE

theorem pad_eq_markedTail (T : List Byte) :
    pad T = (markedTail T).set 135 ((markedTail T).getD 135 0 ||| FINAL_BIT_BYTE) := rfl

theorem markedTail_getElem? {T : List Byte} (hT : T.length ≤ 135) {j : Nat} (hj : j < 136) :
    (markedTail T)[j]? = some (if h : j < T.length then T[j] else if j = T.length then 0x06 else 0x00) := by
  rw [markedTail, List.getElem?_set]
  rcases Nat.lt_trichotomy j T.length with hlt | rfl | hgt
  · simp [hlt, hlt.ne', List.getElem?_append_left hlt]
  · simp [hj]
  · have hzero : j - T.length < 136 - T.length := by omega
    simp [hgt.ne, hgt.ne', Nat.not_lt.mpr hgt.le, List.getElem?_append_right hgt.le, hzero]

theorem pad_getElem? {T : List Byte} (hT : T.length ≤ 135) {j : Nat} (hj : j < 136) :
    (pad T)[j]? = some (if h : j < T.length then T[j]
      else if j = T.length then (if j = 135 then 0x86 else 0x06)
      else if j = 135 then 0x80 else 0x00) := by
  have hlen : (markedTail T).length = 136 := by simp [markedTail]; omega
  rw [pad_eq_markedTail, List.getElem?_set]
  by_cases hlast : j = 135
  · subst hlast
    rw [List.getD_eq_getElem?_getD, markedTail_getElem? hT hj]
    by_cases hfull : 135 = T.length
    · simp [hlen, ← hfull]
    · simp [hlen, hfull, Nat.not_lt.mpr hT]
  · rw [if_neg (Ne.symm hlast), markedTail_getElem? hT hj]
    simp [hlast]

/-- Settles O41: the final bit falls on the domain byte when the tail has 135 bytes, and on a zero byte otherwise. -/
theorem paddingFillsTheBlock : Obligations.PaddingFillsTheBlock := fun T hT =>
  ⟨pad_length T (by omega), fun _ hj => pad_getElem? hT hj⟩

/-! ### The absorb loop (rule R110) -/

theorem absorbMessage_of_long (A : Lanes) {M : List Byte} (h : 136 ≤ M.length) :
    absorbMessage A M = absorbMessage (absorb A (M.take 136)) (M.drop 136) := by
  have hblocks : fullBlocks M = fullBlocks (M.drop 136) + 1 := by
    simp only [fullBlocks, List.length_drop]
    omega
  have htail : tailOf M = tailOf (M.drop 136) := by
    rw [tailOf, tailOf, hblocks, List.drop_drop, Nat.mul_succ, Nat.add_comm]
  rw [absorbMessage, absorbMessage, htail, hblocks, absorbBlocks]

theorem absorbMessage_of_short (A : Lanes) {M : List Byte} (h : M.length < 136) :
    absorbMessage A M = absorb A (pad M) :=
  absorbMessage_append 0 A [] M rfl (by omega)

/-- The blocks that a message is absorbed as: its full blocks, then its padded tail. -/
def paddedBlocks (M : List Byte) : List (List Byte) := (List.range (fullBlocks M)).map (blockOf M) ++ [pad (tailOf M)]

theorem paddedBlocks_length (M : List Byte) : (paddedBlocks M).length = M.length / 136 + 1 := by
  simp [paddedBlocks, fullBlocks]

theorem length_of_mem_paddedBlocks {M P : List Byte} (h : P ∈ paddedBlocks M) : P.length = 136 := by
  simp only [paddedBlocks, List.mem_append, List.mem_map, List.mem_range, List.mem_singleton] at h
  rcases h with ⟨b, hb, rfl⟩ | rfl
  · exact blockOf_length hb
  · exact pad_length _ ((tailOf_length_le M).trans (by decide))

theorem absorbBlocks_eq_foldl (k : Nat) (A : Lanes) (M : List Byte) :
    absorbBlocks k A M = ((List.range k).map (blockOf M)).foldl absorb A := by
  induction k with
  | zero => rfl
  | succ k ih => simp [absorbBlocks_succ, ih, List.range_succ]

theorem absorbMessage_eq_foldl (A : Lanes) (M : List Byte) : absorbMessage A M = (paddedBlocks M).foldl absorb A := by
  rw [absorbMessage, absorbBlocks_eq_foldl, paddedBlocks, List.foldl_append, List.foldl_cons, List.foldl_nil]

/-- Settles O38: the loop goes on while a full block remains, and its blocks are those of `paddedBlocks`. -/
theorem spongeIsTheAbsorbLoop : Obligations.SpongeIsTheAbsorbLoop := by
  refine ⟨fun A M => ?_, fun M => (squeeze_absorbMessage M).symm, fun M =>
    ⟨paddedBlocks M, paddedBlocks_length M, fun _ => length_of_mem_paddedBlocks, fun A => absorbMessage_eq_foldl A M⟩⟩
  split_ifs with h
  · exact absorbMessage_of_long A h
  · exact absorbMessage_of_short A (by omega)

end Sys2Proof.Machine

/-! PROOF. Rejection: its effect, the order of the checks, and the way out of ERROR (60_exceptions.md, rules R141 to
R145). -/

namespace Sys2Proof

/-! ### The checks of an encoding (rules R62, R142) -/

theorem Opcode.mem_iff_exists_field (n : Nat) : n ∈ [1, 2, 3, 4] ↔ ∃ op : Opcode, n = op.field := by
  constructor
  · intro h
    fin_cases h
    exacts [⟨.init, rfl⟩, ⟨.absorb, rfl⟩, ⟨.final, rfl⟩, ⟨.squeeze, rfl⟩]
  · rintro ⟨op, rfl⟩
    cases op <;> decide

theorem Opcode.not_allowsLength_iff (op : Opcode) (len : Nat) : ¬ op.allowsLength len = true ↔
    (op.field ∈ [1, 4] ∧ len ≠ 0) ∨ (op.field = 2 ∧ len ≠ 136) ∨ (op.field = 3 ∧ len > 135) := by
  cases op <;> simp [Opcode.allowsLength, Opcode.field]

theorem decodeFrame_of_no_opcode {word : Word32} (payload : List Byte) (h : ∀ op : Opcode, word.toNat % 256 ≠ op.field) :
    decodeFrame word payload = .error .reservedOpcode := by
  have hop : Opcode.ofField (opcField word) = none :=
    Option.eq_none_iff_forall_ne_some.mpr fun op hop => h op (by rw [← opcField_toNat, ofField_eq_some.mp hop])
  rw [decodeFrame_eq, hop]

end Sys2Proof

namespace Sys2Proof.Machine

/-! ### The effect of a rejection (rules R141, R143) -/

theorem responseWord_rejected (c : Cause) :
    responseWord true .error (.rejected c) = 0x00000005 ||| (c.code.setWidth 32 <<< 8) := by
  rcases c with (_ | _ | _) | _ | _ <;> decide

/-- Settles O23: a rejection is an update of `PHASE` and `REASON` and the sending of its word. -/
theorem rejectionIsPrecise : Obligations.RejectionIsPrecise :=
  ⟨⟨rfl, rfl, rfl, rfl, rfl⟩, fun s c =>
    ⟨rfl, rfl, rfl, by rw [State.reject_recv, responseWord_rejected], rfl, rfl, rfl, rfl, rfl⟩⟩

/-! ### The first failed check (rule R142) -/

/-- The check of a command that its frame leaves open: its phase. -/
def phaseCheck (i : Instr) (s : State) : Option Cause :=
  match i with
  | .init => none
  | .absorb _ => phaseCause .absorbing s
  | .final _ => phaseCause .absorbing s
  | .squeeze => phaseCause .squeezing s

/-- The first check that a complete frame fails: one of its encoding, or the phase of its command. -/
def failedCheck (word : Word32) (s : State) : Option Cause :=
  match decodeFrame word s.staging with
  | .error why => some (.illegal why)
  | .ok i => phaseCheck i s

theorem guarded_of_phaseCause {want : Phase} {s : State} {c : Cause} (effect : State → State)
    (h : phaseCause want s = some c) : guarded true want effect s = s.reject c := by
  rw [guarded, if_pos rfl, h]

theorem exec_of_phaseCheck {i : Instr} {s : State} {c : Cause} (hwf : i.WellFormed) (h : phaseCheck i s = some c) :
    exec i s = .next (s.reject c) := by
  cases i with
  | init => contradiction
  | absorb block => rw [exec_absorb_of_length (beq_iff_eq.mp hwf), guarded_of_phaseCause _ h]
  | final tail => rw [exec_final_of_length (of_decide_eq_true hwf), guarded_of_phaseCause _ h]
  | squeeze => rw [exec_squeeze, guarded_of_phaseCause _ h]

/-- On a well-formed command, acceptance is the phase check. -/
theorem acceptedIn_eq_phaseCheck {i : Instr} (s : State) (hwf : i.WellFormed) :
    acceptedIn i s = (phaseCheck i s == none) := by
  cases i with
  | init => rfl
  | absorb block => exact (congrArg (· && _) hwf).trans (Bool.true_and _)
  | final tail => exact (congrArg (· && _) hwf).trans (Bool.true_and _)
  | squeeze => rfl

/-- A complete frame is rejected with the first check it fails, or executed because it fails none. -/
theorem serveFrame_checks {word : Word32} {s : State} (hlen : s.staging.length = payloadLength word) :
    (∃ c, failedCheck word s = some c ∧ serveFrame word s = .next (s.reject c)) ∨
    (failedCheck word s = none ∧
      ∃ i, decodeFrame word s.staging = .ok i ∧ acceptedIn i s = true ∧ serveFrame word s = exec i s) := by
  rcases serveFrame_cases word s with ⟨i, hd, hserve⟩ | ⟨why, hd, hserve⟩
  · obtain ⟨hwf, -, -⟩ := decodeFrame_ok hlen hd
    have hcheck : failedCheck word s = phaseCheck i s := by rw [failedCheck, hd]
    cases hp : phaseCheck i s with
    | none => exact .inr ⟨hcheck.trans hp, i, hd, by rw [acceptedIn_eq_phaseCheck s hwf, hp]; rfl, hserve⟩
    | some c => exact .inl ⟨c, hcheck.trans hp, hserve.trans (exec_of_phaseCheck hwf hp)⟩
  · exact .inl ⟨.illegal why, by rw [failedCheck, hd], hserve⟩

theorem step_of_frameReady {s : State} {word : Word32} {ready : Bool} (hready : s.FrameReady word)
    (hm : s.EngineMoves ready) : step s = serveFrame word s.afterAct := by
  obtain ⟨hrecv, hlen⟩ := hready
  rw [step_of_engineMoves hm, engineMove_serve (s := s.afterAct) ready hrecv hlen.ge]

theorem acceptedIn_afterAct (i : Instr) (s : State) : acceptedIn i s.afterAct = acceptedIn i s := rfl

theorem failedCheck_afterAct (word : Word32) (s : State) : failedCheck word s.afterAct = failedCheck word s := rfl

/-! ### The reason code of the first failed check (rules R141, R142) -/

/-- The code of a check, 0 where none failed. -/
def checkCode (c : Option Cause) : Nat :=
  match c with
  | none => 0
  | some c => c.code.toNat

@[simp] theorem checkCode_none : checkCode none = 0 := rfl

theorem Cause.code_ne_zero (c : Cause) : c.code.toNat ≠ 0 := by
  rcases c with (_ | _ | _) | _ | _ <;> decide

theorem checkCode_phaseCause (want : Phase) (s : State) : checkCode (phaseCause want s) =
    if s.phase = .error then 5 else if s.phase ≠ want then 4 else 0 := by
  unfold phaseCause
  split_ifs <;> rfl

theorem checkCode_phaseCheck (op : Opcode) (payload : List Byte) (s : State) :
    checkCode (phaseCheck (op.command payload) s) =
      if op.field ≠ 1 ∧ s.phase = .error then 5
      else if op.field ∈ [2, 3] ∧ s.phase ≠ .absorbing then 4
      else if op.field = 4 ∧ s.phase ≠ .squeezing then 4
      else 0 := by
  cases op with
  | init => simp [Opcode.command, Opcode.field, phaseCheck]
  | absorb => simp [Opcode.command, Opcode.field, phaseCheck, checkCode_phaseCause]
  | final => simp [Opcode.command, Opcode.field, phaseCheck, checkCode_phaseCause]
  | squeeze => simp [Opcode.command, Opcode.field, phaseCheck, checkCode_phaseCause]

/-- The ordered list of rule R142 gives the code of the first failed check. -/
theorem checkCode_failedCheck (word : Word32) (s : State) : checkCode (failedCheck word s) =
    if word.toNat % 256 ∉ [1, 2, 3, 4] then 1
    else if word.toNat / 65536 ≠ 0 then 2
    else if (word.toNat % 256 ∈ [1, 4] ∧ word.toNat / 256 % 256 ≠ 0) ∨
        (word.toNat % 256 = 2 ∧ word.toNat / 256 % 256 ≠ 136) ∨
        (word.toNat % 256 = 3 ∧ word.toNat / 256 % 256 > 135) then 3
    else if word.toNat % 256 ≠ 1 ∧ s.phase = .error then 5
    else if word.toNat % 256 ∈ [2, 3] ∧ s.phase ≠ .absorbing then 4
    else if word.toNat % 256 = 4 ∧ s.phase ≠ .squeezing then 4
    else 0 := by
  rw [failedCheck]
  by_cases hdef : word.toNat % 256 ∈ [1, 2, 3, 4]
  · obtain ⟨op, hop⟩ := (Opcode.mem_iff_exists_field _).mp hdef
    rw [decodeFrame_of_opcode op s.staging hop, if_neg (not_not.mpr hdef), hop, ← checkCode_phaseCheck op s.staging]
    simp only [← Opcode.not_allowsLength_iff]
    split_ifs <;> rfl
  · rw [decodeFrame_of_no_opcode s.staging fun op hop => hdef ((Opcode.mem_iff_exists_field _).mpr ⟨op, hop⟩), if_pos hdef]
    rfl

/-- Settles O9: the listed code is that of the first failed check, which decides the step. -/
theorem checksAreMadeInOrder : Obligations.ChecksAreMadeInOrder := by
  intro s word ready hready hm opc len rsv code
  have hcode : checkCode (failedCheck word s) = code := checkCode_failedCheck word s
  rw [← hcode, step_of_frameReady hready hm]
  rcases serveFrame_checks (s := s.afterAct) hready.2 with ⟨c, hc, hserve⟩ | ⟨hc, i, hd, ha, hserve⟩
  · rw [failedCheck_afterAct] at hc
    rw [hc]
    exact ⟨fun _ => ⟨c, rfl, hserve⟩, fun h => absurd h (Cause.code_ne_zero c)⟩
  · rw [failedCheck_afterAct] at hc
    rw [acceptedIn_afterAct] at ha
    rw [hc]
    obtain ⟨op, hop, -, -, -⟩ := decodeFrame_eq_ok.mp hd
    have hfield : Opcode.ofField (BitVec.ofNat 8 opc) = some op := ofField_eq_some.mpr (by simpa [opc] using hop)
    exact ⟨fun h => absurd rfl h, fun _ => ⟨i, hd, by rw [hfield]; rfl, ha, hserve⟩⟩

/-! ### The way out of ERROR (rule R145) -/

section
variable (s : State)

theorem State.takeWordByte_status (got : List Byte) : (s.takeWordByte got).lanes = s.lanes ∧
    (s.takeWordByte got).phase = s.phase ∧ (s.takeWordByte got).reason = s.reason := by
  unfold State.takeWordByte
  split <;> exact ⟨rfl, rfl, rfl⟩

theorem State.takePayloadByte_status : s.takePayloadByte.lanes = s.lanes ∧
    s.takePayloadByte.phase = s.phase ∧ s.takePayloadByte.reason = s.reason := by
  unfold State.takePayloadByte
  split <;> exact ⟨rfl, rfl, rfl⟩

theorem State.drainByte_status (pending : List Byte) : (s.drainByte pending).lanes = s.lanes ∧
    (s.drainByte pending).phase = s.phase ∧ (s.drainByte pending).reason = s.reason := by
  unfold State.drainByte
  split <;> exact ⟨rfl, rfl, rfl⟩

end

/-- Only an accepted command, a rejection and reset write the lanes, `PHASE` or `REASON`. -/
theorem step_writes_status {s t : State} (h : step s = .next t) :
    (∃ i, s.Serves i ∧ acceptedIn i s = true ∧ t = acceptedState i s.afterAct) ∨
    (∃ c, t = s.afterAct.reject c) ∨
    (s.host.head? = some .reset ∧ t = s.afterAct.resetEvent) ∨
    (t.lanes = s.lanes ∧ t.phase = s.phase ∧ t.reason = s.reason) := by
  rcases step_cases h with ⟨got, -, rfl⟩ | ⟨word, -, -, rfl⟩ | haccept | ⟨-, hreject⟩ | ⟨pending, -, rfl⟩ |
    ⟨pending, -, rfl⟩ | ⟨b, acts, -, rfl⟩ | ⟨acts, hhost, hreset⟩
  · exact .inr (.inr (.inr (s.afterAct.takeWordByte_status got)))
  · exact .inr (.inr (.inr s.afterAct.takePayloadByte_status))
  · exact .inl haccept
  · exact .inr (.inl hreject)
  · exact .inr (.inr (.inr (s.afterAct.drainByte_status pending)))
  · exact .inr (.inr (.inr ⟨rfl, rfl, rfl⟩))
  · exact .inr (.inr (.inr ⟨rfl, rfl, rfl⟩))
  · exact .inr (.inr (.inl ⟨by rw [hhost]; rfl, hreset⟩))

theorem eq_init_of_acceptedIn_error {i : Instr} {s : State} (he : s.phase = .error) (h : acceptedIn i s = true) :
    i = .init := by
  have hp := acceptedIn_phase h
  cases i with
  | init => rfl
  | absorb block => simp [he] at hp
  | final tail => simp [he] at hp
  | squeeze => simp [he] at hp

/-- Settles O29: a step that writes `PHASE` in ERROR is a rejection, which stays there, or the accepted INIT, or
reset. -/
theorem onlyInitOrResetLeavesError : Obligations.OnlyInitOrResetLeavesError := by
  intro s t he h hne
  rcases step_writes_status h with ⟨i, hserves, ha, rfl⟩ | ⟨c, rfl⟩ | ⟨hreset, rfl⟩ | ⟨-, hphase, -⟩
  · obtain rfl := eq_init_of_acceptedIn_error he ha
    exact ⟨.inr hserves, rfl, rfl, rfl⟩
  · exact absurd (State.reject_phase _ c) hne
  · exact ⟨.inl hreset, rfl, rfl, rfl⟩
  · exact absurd (hphase.trans he) hne

end Sys2Proof.Machine

/-! PROOF. The two ports under flow control, a frame that waits for its missing bytes, and reset
(70_reset_and_hazards.md, rules R160, R165, R166). -/

namespace Sys2Proof.Machine

section
variable {s t : State}

/-! ### The acts of the outside world (rules R160, R165) -/

theorem engineMoves_false_iff : s.EngineMoves false ↔ s.host.head? = some .hold := by
  unfold State.EngineMoves
  split <;> simp [*]

theorem exists_engineMoves (h : ∀ a ∈ s.host, a = .go ∨ a = .hold) : ∃ ready, s.EngineMoves ready := by
  rcases step_acts s with ⟨ready, hm, -⟩ | ⟨b, acts, hh, -⟩ | ⟨acts, hh, -⟩
  · exact ⟨ready, hm⟩
  · simp [hh] at h
  · simp [hh] at h

theorem step_of_offer {b : Byte} {acts : List HostAct} (h : s.host = .offer b :: acts) :
    step s = .next { s with host := acts, cmdPort := s.cmdPort ++ [b] } := by
  simp only [step, serve, h]

theorem step_of_reset {acts : List HostAct} (h : s.host = .reset :: acts) :
    step s = .next (State.resetEvent { s with host := acts }) := by
  simp only [step, serve, h]

/-- Without a reset, the step is the engine's move, or the offer of a byte. -/
theorem step_of_not_reset {u : State} (hreset : s.host.head? ≠ some .reset)
    (hmove : ∀ ready, engineMove ready s.afterAct = .next u) (h : step s = .next t) :
    t = u ∨ ∃ b, t = { s.afterAct with cmdPort := s.cmdPort ++ [b] } := by
  rcases step_acts s with ⟨ready, -, hs⟩ | ⟨b, acts, -, hs⟩ | ⟨acts, hh, -⟩
  · rw [hs, hmove, Host.Outcome.next.injEq] at h
    exact .inl h.symm
  · rw [hs, Host.Outcome.next.injEq] at h
    exact .inr ⟨b, h.symm⟩
  · exact absurd (by rw [hh]; rfl) hreset

/-- When each of `n` steps does nothing but use up the act of the outside world, the run does nothing else either. -/
theorem run_uses_up_acts (n : Nat) (h : ∀ k < n, step { s with host := s.host.drop k } =
    .next (State.afterAct { s with host := s.host.drop k })) : run n s = .next { s with host := s.host.drop n } := by
  induction n with
  | zero => rfl
  | succ n ih =>
    rw [run_add n 1 (ih fun k hk => h k (by omega)), run_succ 0 (h n n.lt_succ_self), run_zero, ← List.tail_drop]
    rfl

/-! ### One byte taken, or none (rules R64, R165) -/

theorem State.takeWordByte_cases (s : State) (got : List Byte) : s.takeWordByte got = s ∨
    ∃ b rest, s.cmdPort = b :: rest ∧
      s.takeWordByte got = { s with cmdPort := rest, staging := [], recv := recvOfWordBytes (got ++ [b]) } := by
  cases hc : s.cmdPort with
  | nil => exact .inl (s.takeWordByte_nil got hc)
  | cons b rest => exact .inr ⟨b, rest, rfl, s.takeWordByte_cons got hc⟩

theorem State.takePayloadByte_cases (s : State) : s.takePayloadByte = s ∨ ∃ b rest, s.cmdPort = b :: rest ∧
    s.takePayloadByte = { s with cmdPort := rest, staging := s.staging ++ [b] } := by
  cases hc : s.cmdPort with
  | nil => exact .inl (s.takePayloadByte_nil hc)
  | cons b rest => exact .inr ⟨b, rest, rfl, s.takePayloadByte_cons hc⟩

theorem State.drainByte_cmdPort (s : State) (pending : List Byte) : (s.drainByte pending).cmdPort = s.cmdPort := by
  cases pending with
  | nil => rfl
  | cons b more => rw [State.drainByte_cons]

/-! ### What the engine's move does at the two ports (rule R165) -/

/-- What the engine's move can do: take a byte of the word or of the payload, serve the frame, drain a byte if the host
takes it, or wait. -/
theorem engineMove_cases {ready : Bool} (h : engineMove ready s = .next t) :
    (∃ got, s.recv = .word got ∧ t = s.takeWordByte got) ∨
    (∃ word, s.recv = .payload word ∧ s.staging.length < payloadLength word ∧ t = s.takePayloadByte) ∨
    (∃ word, s.recv = .payload word ∧ payloadLength word ≤ s.staging.length ∧ serveFrame word s = .next t) ∨
    (∃ pending, s.recv = .respond pending ∧ ready = true ∧ t = s.drainByte pending) ∨
    (∃ pending, s.recv = .respond pending ∧ ready = false ∧ t = s) := by
  cases hr : s.recv with
  | word got =>
    rw [engineMove_word ready hr, Host.Outcome.next.injEq] at h
    exact .inl ⟨got, rfl, h.symm⟩
  | payload word =>
    rcases Nat.lt_or_ge s.staging.length (payloadLength word) with hlt | hle
    · rw [engineMove_take ready hr hlt, Host.Outcome.next.injEq] at h
      exact .inr (.inl ⟨word, rfl, hlt, h.symm⟩)
    · rw [engineMove_serve ready hr hle] at h
      exact .inr (.inr (.inl ⟨word, rfl, hle, h⟩))
  | respond pending =>
    rw [engineMove_respond ready hr, Host.Outcome.next.injEq] at h
    cases ready with
    | false => exact .inr (.inr (.inr (.inr ⟨pending, rfl, rfl, h.symm⟩)))
    | true => exact .inr (.inr (.inr (.inl ⟨pending, rfl, rfl, h.symm⟩)))

/-- The response port gains the oldest pending byte, with a host that takes it, or nothing. -/
theorem engineMove_rspPort {ready : Bool} (h : engineMove ready s = .next t) : t.rspPort = s.rspPort ∨
    ∃ b more, s.recv = .respond (b :: more) ∧ ready = true ∧ t.rspPort = s.rspPort ++ [b] := by
  rcases engineMove_cases h with ⟨got, -, rfl⟩ | ⟨word, -, -, rfl⟩ | ⟨word, -, -, hserve⟩ | ⟨pending, hr, hready, rfl⟩ |
    ⟨pending, -, -, rfl⟩
  · rcases s.takeWordByte_cases got with heq | ⟨b, rest, -, heq⟩ <;> exact .inl (by rw [heq])
  · rcases s.takePayloadByte_cases with heq | ⟨b, rest, -, heq⟩ <;> exact .inl (by rw [heq])
  · obtain ⟨frame, -, -, -, hrsp, -⟩ := serveFrame_responds hserve
    exact .inl hrsp
  · cases pending with
    | nil => exact .inl rfl
    | cons b more => exact .inr ⟨b, more, hr, hready, by rw [State.drainByte_cons]⟩
  · exact .inl rfl

/-- The byte `b` went from the state `s` into the frame under way in the state `t`. -/
def State.ByteJoinsFrame (s : State) (b : Byte) (t : State) : Prop :=
  (∃ got, s.recv = .word got ∧ t.recv = recvOfWordBytes (got ++ [b])) ∨
  (∃ word, s.recv = .payload word ∧ s.staging.length < payloadLength word ∧ t.recv = .payload word ∧
    t.staging = s.staging ++ [b])

/-- The command port loses its oldest byte into the frame, or nothing. -/
theorem engineMove_cmdPort {ready : Bool} (h : engineMove ready s = .next t) : t.cmdPort = s.cmdPort ∨
    ∃ b, s.cmdPort = b :: t.cmdPort ∧ s.ByteJoinsFrame b t := by
  rcases engineMove_cases h with ⟨got, hr, rfl⟩ | ⟨word, hr, hlt, rfl⟩ | ⟨word, -, -, hserve⟩ | ⟨pending, -, -, rfl⟩ |
    ⟨pending, -, -, rfl⟩
  · rcases s.takeWordByte_cases got with heq | ⟨b, rest, hc, heq⟩ <;> rw [heq]
    · exact .inl rfl
    · exact .inr ⟨b, hc, .inl ⟨got, hr, rfl⟩⟩
  · rcases s.takePayloadByte_cases with heq | ⟨b, rest, hc, heq⟩ <;> rw [heq]
    · exact .inl rfl
    · exact .inr ⟨b, hc, .inr ⟨word, hr, hlt, hr, rfl⟩⟩
  · obtain ⟨frame, -, -, hcmd, -, -⟩ := serveFrame_responds hserve
    exact .inl hcmd
  · exact .inl (s.drainByte_cmdPort pending)
  · exact .inl rfl

/-! ### A pending response (rule R165) -/

theorem step_of_respond {pending : List Byte} {ready : Bool} (hr : s.recv = .respond pending)
    (hm : s.EngineMoves ready) :
    step s = .next (if ready then s.afterAct.drainByte pending else s.afterAct) := by
  rw [step_of_engineMoves hm, engineMove_respond (s := s.afterAct) ready hr]

/-- A host that does not drain for `n` steps stalls the engine for `n` steps. -/
theorem run_of_hold {pending : List Byte} {acts : List HostAct} (n : Nat) (hr : s.recv = .respond pending)
    (hh : s.host = List.replicate n .hold ++ acts) : run n s = .next { s with host := acts } := by
  have hrest : s.host.drop n = acts := by rw [hh, List.drop_left' List.length_replicate]
  have hrun : run n s = .next { s with host := s.host.drop n } := by
    refine run_uses_up_acts n fun k hk => ?_
    have hhold : State.EngineMoves { s with host := s.host.drop k } false := by
      rw [engineMoves_false_iff, List.head?_drop, hh, List.getElem?_append_left (by simpa using hk),
        List.getElem?_replicate_of_lt hk]
    exact step_of_respond (s := { s with host := s.host.drop k }) hr hhold
  rw [hrun, hrest]

end

/-- Settles O11: the response's clauses are those of a step with a response pending, and the clauses of the two ports
those of the engine's move, since an offer and reset leave the rest of the ports alone. -/
theorem portsAreFlowControlled : Obligations.PortsAreFlowControlled := by
  refine ⟨fun s b more hr => ⟨step_of_respond hr, fun hm => ?_⟩, fun n s pending acts => run_of_hold n,
    fun s b acts => step_of_offer, fun s t h => ?_, fun s t h => ?_⟩
  · rw [step_of_respond hr hm, if_pos rfl, State.drainByte_cons, State.afterAct_rspPort]
  · rcases step_acts s with ⟨ready, hm, hs⟩ | ⟨b, acts, -, hs⟩ | ⟨acts, -, hs⟩ <;> rw [hs] at h
    · rcases engineMove_rspPort h with hsame | ⟨b, more, hr, rfl, hgain⟩
      · exact .inl hsame
      · exact .inr ⟨b, more, hr, hm, hgain⟩
    · cases h
      exact .inl rfl
    · cases h
      exact .inl rfl
  · rcases step_acts s with ⟨ready, -, hs⟩ | ⟨b, acts, hh, hs⟩ | ⟨acts, -, hs⟩ <;> rw [hs] at h
    · exact (engineMove_cmdPort h).imp_right .inr
    · cases h
      exact .inr (.inl ⟨b, acts, hh, rfl⟩)
    · cases h
      exact .inl rfl

/-! ### A truncated frame (rule R166) -/

theorem engineMove_of_starved {s : State} (ready : Bool) (h : s.Starved) : engineMove ready s = .next s := by
  obtain ⟨hc, hneeds⟩ := h
  cases hr : s.recv with
  | word got => rw [engineMove_word ready hr, s.takeWordByte_nil got hc]
  | payload word =>
    rw [hr] at hneeds
    rw [engineMove_take ready hr hneeds, s.takePayloadByte_nil hc]
  | respond pending =>
    rw [hr] at hneeds
    exact hneeds.elim

theorem step_of_starved {s : State} (hs : s.Starved) (hh : ∀ a ∈ s.host, a = .go ∨ a = .hold) :
    step s = .next s.afterAct := by
  obtain ⟨ready, hm⟩ := exists_engineMoves hh
  rw [step_of_engineMoves hm, engineMove_of_starved (s := s.afterAct) ready hs]

theorem run_of_starved {s : State} (n : Nat) (hs : s.Starved) (hh : ∀ a ∈ s.host, a = .go ∨ a = .hold) :
    run n s = .next { s with host := s.host.drop n } :=
  run_uses_up_acts n fun k _ =>
    step_of_starved (s := { s with host := s.host.drop k }) hs fun a ha => hh a (List.mem_of_mem_drop ha)

/-- The byte a starved engine is offered is on the command port after one step, and in the frame after two. -/
theorem run_offer_of_starved {s : State} {b : Byte} (hs : s.Starved) (hh : s.host = [.offer b]) :
    (∃ got, s.recv = .word got ∧
      run 2 s = .next { s with host := [], cmdPort := [], staging := [], recv := recvOfWordBytes (got ++ [b]) }) ∨
    (∃ word, s.recv = .payload word ∧
      run 2 s = .next { s with host := [], cmdPort := [], staging := s.staging ++ [b] }) := by
  obtain ⟨hc, hneeds⟩ := hs
  have hoffer : step s = .next { s with host := [], cmdPort := [b] } := by rw [step_of_offer hh, hc, List.nil_append]
  rw [run_succ 1 hoffer]
  cases hr : s.recv with
  | word got => exact .inl ⟨got, rfl, run_succ 0 (step_takes_wordByte (b := b) (rest := []) rfl rfl rfl)⟩
  | payload word =>
    rw [hr] at hneeds
    exact .inr ⟨word, rfl, run_takes_payload (rest := []) [b] rfl rfl rfl hneeds⟩
  | respond pending =>
    rw [hr] at hneeds
    exact hneeds.elim

/-- A command word under way stays under way, with at most one more byte. -/
theorem step_keeps_word {s t : State} {got : List Byte} (hreset : s.host.head? ≠ some .reset) (h : step s = .next t)
    (hr : s.recv = .word got) : t.recv = s.recv ∨ ∃ b, t.recv = recvOfWordBytes (got ++ [b]) := by
  rcases step_of_not_reset hreset (fun ready => engineMove_word (s := s.afterAct) ready hr) h with rfl | ⟨b, rfl⟩
  · rcases s.afterAct.takeWordByte_cases got with heq | ⟨b, rest, -, heq⟩ <;> rw [heq]
    · exact .inl rfl
    · exact .inr ⟨b, rfl⟩
  · exact .inl rfl

/-- A payload under way stays under way, with at most one more byte. -/
theorem step_keeps_payload {s t : State} {word : Word32} (hreset : s.host.head? ≠ some .reset) (h : step s = .next t)
    (hr : s.recv = .payload word) (hlt : s.staging.length < payloadLength word) :
    t.recv = s.recv ∧ (t.staging = s.staging ∨ ∃ b, t.staging = s.staging ++ [b]) := by
  rcases step_of_not_reset hreset (fun ready => engineMove_take (s := s.afterAct) ready hr hlt) h with rfl | ⟨b, rfl⟩
  · rcases s.afterAct.takePayloadByte_cases with heq | ⟨b, rest, -, heq⟩ <;> rw [heq]
    · exact ⟨rfl, .inl rfl⟩
    · exact ⟨rfl, .inr ⟨b, rfl⟩⟩
  · exact ⟨rfl, .inl rfl⟩

/-- Settles O12: a starved engine's move changes nothing, and the move of an engine that has a byte puts it into the
frame. -/
theorem truncatedFrameWaits : Obligations.TruncatedFrameWaits := by
  refine ⟨fun n s hs hh => run_of_starved n hs hh, fun s b hs hh => ?_, fun s t hreset h =>
    ⟨fun got hr => step_keeps_word hreset h hr, fun word hr hlt => step_keeps_payload hreset h hr hlt⟩⟩
  rcases run_offer_of_starved hs hh with ⟨got, hr, hrun⟩ | ⟨word, hr, hrun⟩
  · exact ⟨_, hrun, rfl, rfl, rfl, rfl, rfl, .inl ⟨got, hr, rfl⟩⟩
  · exact ⟨_, hrun, rfl, rfl, rfl, rfl, rfl, .inr ⟨word, hr, hr, rfl⟩⟩

/-! ### Reset (rule R160) -/

/-- Settles O13: the step is `resetEvent`, whatever the state. -/
theorem resetInstallsTheResetValues : Obligations.ResetInstallsTheResetValues := fun _ _ hh =>
  ⟨_, step_of_reset hh, zeroLanes_getElem, rfl, rfl, rfl, rfl⟩

end Sys2Proof.Machine

/-! PROOF. Decoding and encoding invert each other, and the step runs what the decoder reads (30_encoding.md, rules R60
to R65, R142). -/

namespace Sys2Proof

/-! ### Frames that decode to a command (rules R60 to R65) -/

theorem decode_eq_command {bytes rest : List Byte} {i : Instr} : decode bytes = .command i rest ↔
    ∃ word payload, takeFrame bytes = some (word, payload, rest) ∧ decodeFrame word payload = .ok i := by
  unfold decode
  cases hframe : takeFrame bytes with
  | none => simp
  | some frame =>
    obtain ⟨word, payload, rest'⟩ := frame
    cases hd : decodeFrame word payload with
    | error why => simp [hd]
    | ok j => simp [hd, and_comm]

theorem absorb_wellFormed_iff (block : List Byte) : (Instr.absorb block).WellFormed ↔ block.length = 136 := beq_iff_eq

theorem final_wellFormed_iff (tail : List Byte) : (Instr.final tail).WellFormed ↔ tail.length ≤ 135 := decide_eq_true_iff

theorem legalWord (i : Instr) : Laws.LegalWord.Statement i := by
  cases i with
  | init => exact Laws.LegalWord.init
  | absorb block => exact Laws.LegalWord.absorb block
  | final tail => exact Laws.LegalWord.final tail
  | squeeze => exact Laws.LegalWord.squeeze

/-- Settles O1: the encoder's word announces the payload, so exactly the frame is cut off, and it decodes to the
command. -/
theorem decodeOfEncodeIsTheCommand : Obligations.DecodeOfEncodeIsTheCommand := by
  intro i rest hwf
  obtain ⟨hlen, hd⟩ := legalWord i hwf
  exact decode_eq_command.mpr ⟨encodeWord i, i.payload, takeFrame_append _ _ _ hlen, hd⟩

/-- Settles O2: the frame cut off has the length its word announces, and such a frame is that of the command it decodes
to. -/
theorem encodeOfDecodedCommandIsTheFrame : Obligations.EncodeOfDecodedCommandIsTheFrame := by
  intro bytes rest i h
  obtain ⟨word, payload, hframe, hd⟩ := decode_eq_command.mp h
  obtain ⟨hbytes, hlen⟩ := takeFrame_eq_some hframe
  obtain ⟨hwf, hword, hpayload⟩ := decodeFrame_ok hlen hd
  exact ⟨hwf, by rw [encode, hword, hpayload, hbytes]⟩

/-- Settles O4: the opcodes 1 to 4 are those of the opcode map, and each has the length check listed for it. -/
theorem everyCommandWordHasOneMeaning : Obligations.EveryCommandWordHasOneMeaning := by
  intro word payload opc len rsv
  by_cases hopc : opc = 0 ∨ 5 ≤ opc
  · rw [if_pos hopc]
    refine decodeFrame_of_no_opcode payload fun op hop => ?_
    change opc = op.field at hop
    cases op <;> simp only [Opcode.field] at hop <;> omega
  · rw [if_neg hopc]
    obtain ⟨op, hop⟩ : ∃ op : Opcode, opc = op.field :=
      (Opcode.mem_iff_exists_field opc).mp (by simp only [List.mem_cons, List.not_mem_nil]; omega)
    rw [decodeFrame_of_opcode op payload hop, hop]
    cases op <;> simp [Opcode.field, Opcode.allowsLength, Opcode.command, rsv, len]

/-! ### The opcode table's words (rule R62, log 9) -/

theorem decodeTableWord_eq_some {nbits w : Nat} {i : Instr} : decodeTableWord nbits w = some i ↔
    ∃ rest, decode (tableBytes nbits w) = .command i rest := by
  unfold decodeTableWord
  split <;> simp [*]

/-- Settles O5: each word is evaluated. -/
theorem opcodeTableWordsDecode : Obligations.OpcodeTableWordsDecode := by
  unfold Obligations.OpcodeTableWordsDecode
  decide +kernel

end Sys2Proof

namespace Sys2Proof.Machine

/-! ### The step runs the decoded command (rules R64, R142) -/

/-- Settles O7: the word and the staging buffer are the frame that the bytes begin with. -/
theorem stepRunsTheDecodedCommand : Obligations.StepRunsTheDecodedCommand := by
  intro s word ready i hready hm h
  obtain ⟨word', payload, hframe, hd⟩ := decode_eq_command.mp h
  have hown := takeFrame_append word s.staging [] hready.2
  rw [List.append_nil, hframe, Option.some.injEq, Prod.mk.injEq, Prod.mk.injEq] at hown
  obtain ⟨rfl, rfl, -⟩ := hown
  refine ⟨(decodeFrame_ok hready.2 hd).1, ?_⟩
  rw [step_of_frameReady hready hm, serveFrame, State.afterAct_staging, hd]

theorem State.withFetchWord_of_takeFrame (s : State) {nbits w : Nat} {word : Word32} {payload rest : List Byte}
    (h : takeFrame (tableBytes nbits w) = some (word, payload, rest)) :
    s.withFetchWord nbits w = { s with recv := .payload word, staging := payload, host := [] } := by
  rw [State.withFetchWord, State.stageFrame, h]

/-- Settles O8: the staged frame is ready, and no act of the outside world comes before it. -/
theorem tableRowRunsNext : Obligations.TableRowRunsNext := by
  intro s nbits w i h
  obtain ⟨rest, hdec⟩ := decodeTableWord_eq_some.mp h
  obtain ⟨word, payload, hframe, hd⟩ := decode_eq_command.mp hdec
  obtain ⟨t, ht⟩ := exec_next i (s.withFetchWord nbits w)
  rw [ht]
  rw [s.withFetchWord_of_takeFrame hframe] at ht ⊢
  exact step_serves rfl rfl (takeFrame_eq_some hframe).2.ge hd ht

end Sys2Proof.Machine

/-! PROOF. The text of the commands: each line and the frame it assembles to (rules R16, R69, R70). -/

namespace Sys2Proof.Machine

/-- The words of a line (rule R69). -/
def wordsOf (line : List Char) : List (List Char) := tokensFrom [] (stripComment line)

/-! ### Lines by their mnemonic -/

section
variable {line operand payload : List Char}

theorem parseLine_absorb (h : wordsOf line = ["ABSORB".toList, operand]) :
    parseLine line = (hexOperand operand).bind fun block => checkedCommand (.absorb block) := by
  rw [wordsOf] at h
  simp [parseLine, h]

theorem parseLine_final (h : wordsOf line = ["FINAL".toList, operand]) :
    parseLine line = (hexOperand operand).bind fun tail => checkedCommand (.final tail) := by
  rw [wordsOf] at h
  simp [parseLine, h]

theorem parseLine_sha3 (h : wordsOf line = ["SHA3_256".toList, operand]) :
    parseLine line = (hexOperand operand).map .sha3 := by
  rw [wordsOf] at h
  simp [parseLine, h]

theorem parseLine_word (h : wordsOf line = [".word".toList, operand]) :
    parseLine line = (hexWord operand).map fun w => .raw w [] := by
  rw [wordsOf] at h
  simp [parseLine, h]

theorem parseLine_word_payload (h : wordsOf line = [".word".toList, operand, payload]) :
    parseLine line = (hexWord operand).bind fun w => (hexOperand payload).map fun bytes => .raw w bytes := by
  rw [wordsOf] at h
  simp [parseLine, h]

end

/-! ### Lines of a mnemonic and its operands -/

section
variable {m t : List Char} (hm : m ∈ ["ABSORB".toList, "FINAL".toList, "SHA3_256".toList, ".word".toList])
  (ht : ∀ c ∈ t, TokenChar c) (hne : t ≠ [])
include hm ht hne

theorem wordsOf_operand : wordsOf (m ++ [' '] ++ t) = [m, t] := by
  obtain ⟨hmne, hmchars⟩ := mnemonic_tokenChars m hm
  rw [List.append_assoc]
  exact tokensFrom_two hmchars ht hmne hne

theorem wordsOf_operand_payload {payload : List Byte} (hp : payload ≠ []) :
    wordsOf (m ++ [' '] ++ t ++ [' '] ++ hexText payload) = [m, t, hexText payload] := by
  obtain ⟨hmne, hmchars⟩ := mnemonic_tokenChars m hm
  rw [List.append_assoc, List.append_assoc, List.append_assoc]
  exact tokensFrom_three hmchars ht (hexText_tokenChars payload) hmne hne (hexText_ne_nil hp)

end

section
variable {bytes : List Byte} (hb : bytes ≠ [])
include hb

theorem parseLine_absorb_hexText : parseLine ("ABSORB ".toList ++ hexText bytes) = checkedCommand (.absorb bytes) := by
  have hwords := wordsOf_operand (m := "ABSORB".toList) (by simp) (hexText_tokenChars bytes) (hexText_ne_nil hb)
  exact (parseLine_absorb hwords).trans (by rw [hexOperand_hexText, Option.bind_some])

theorem parseLine_final_hexText : parseLine ("FINAL ".toList ++ hexText bytes) = checkedCommand (.final bytes) := by
  have hwords := wordsOf_operand (m := "FINAL".toList) (by simp) (hexText_tokenChars bytes) (hexText_ne_nil hb)
  exact (parseLine_final hwords).trans (by rw [hexOperand_hexText, Option.bind_some])

theorem parseLine_sha3_hexText : parseLine ("SHA3_256 ".toList ++ hexText bytes) = some (.sha3 bytes) := by
  have hwords := wordsOf_operand (m := "SHA3_256".toList) (by simp) (hexText_tokenChars bytes) (hexText_ne_nil hb)
  exact (parseLine_sha3 hwords).trans (by rw [hexOperand_hexText, Option.map_some])

end

theorem checkedCommand_of_wellFormed {i : Instr} (h : i.WellFormed) : checkedCommand i = some (.command i) := if_pos h

theorem checkedCommand_of_not_wellFormed {i : Instr} (h : ¬ i.WellFormed) : checkedCommand i = none := if_neg h

section
variable {t : List Char} {b0 b1 b2 b3 : Byte} (ht : ∀ c ∈ t, TokenChar c) (hne : t ≠ [])
  (hw : hexWord t = some (le32 b0 b1 b2 b3))
include ht hne hw

theorem raw_bytes : (parseLine (".word ".toList ++ t)).map AsmLine.bytes = some [b0, b1, b2, b3] := by
  have hparse : parseLine (".word ".toList ++ t) = _ :=
    parseLine_word (wordsOf_operand (m := ".word".toList) (by simp) ht hne)
  rw [hparse, hw, Option.map_some, Option.map_some, AsmLine.bytes, le32Bytes_le32, List.append_nil]

theorem raw_payload_bytes {payload : List Byte} (hp : payload ≠ []) :
    (parseLine (".word ".toList ++ t ++ [' '] ++ hexText payload)).map AsmLine.bytes =
      some ([b0, b1, b2, b3] ++ payload) := by
  have hparse : parseLine (".word ".toList ++ t ++ [' '] ++ hexText payload) = _ :=
    parseLine_word_payload (wordsOf_operand_payload (m := ".word".toList) (by simp) ht hne hp)
  rw [hparse, hw, hexOperand_hexText, Option.bind_some, Option.map_some, Option.map_some, AsmLine.bytes, le32Bytes_le32]

end

/-- Settles O6: a line of hex text falls into its words, each of which reads as the bytes it was written from; the lines
without an operand of text are evaluated. -/
theorem commandLinesAssembleToTheirFrames : Obligations.CommandLinesAssembleToTheirFrames := by
  refine ⟨by decide +kernel, by decide +kernel, by decide +kernel, by decide +kernel, fun line comment => ?_,
    fun block hb => ?_, fun tail hne ht => ?_, fun b0 b1 b2 b3 => ?_, fun b0 b1 b2 b3 payload hp => ?_,
    fun b0 b1 b2 b3 => ?_, fun b0 b1 b2 b3 payload hp => ?_, fun block hb => ?_, fun tail ht => ?_,
    fun message hm => ?_, by decide +kernel⟩
  · rw [parseLine, parseLine, stripComment_append]
  · have hne : block ≠ [] := List.ne_nil_of_length_eq_add_one hb
    rw [parseLine_absorb_hexText hne, checkedCommand_of_wellFormed ((absorb_wellFormed_iff block).mpr hb), Option.map_some, AsmLine.bytes,
      encode_absorb]
  · rw [parseLine_final_hexText hne, checkedCommand_of_wellFormed ((final_wellFormed_iff tail).mpr ht), Option.map_some, AsmLine.bytes,
      encode_final]
  · exact raw_bytes (hexText_tokenChars _) (hexText_ne_nil (List.cons_ne_nil _ _)) (hexWord_hexText ..)
  · exact raw_payload_bytes (hexText_tokenChars _) (hexText_ne_nil (List.cons_ne_nil _ _)) (hexWord_hexText ..) hp
  · exact raw_bytes (hexText_0x_tokenChars _) (List.cons_ne_nil _ _) (hexWord_0x_hexText ..)
  · exact raw_payload_bytes (hexText_0x_tokenChars _) (List.cons_ne_nil _ _) (hexWord_0x_hexText ..) hp
  · by_cases hne : block = []
    · subst hne
      decide +kernel
    · rw [parseLine_absorb_hexText hne, checkedCommand_of_not_wellFormed (mt (absorb_wellFormed_iff block).mp hb)]
  · have hne : tail ≠ [] := List.ne_nil_of_length_pos (by omega)
    rw [parseLine_final_hexText hne, checkedCommand_of_not_wellFormed (mt (final_wellFormed_iff tail).mp ht.not_ge)]
  · rw [parseLine_sha3_hexText hm, Option.map_some, AsmLine.bytes]

end Sys2Proof.Machine

/-! PROOF. What commands and steps write, runs that never stop, and reset (10_state.md, 60_exceptions.md,
70_reset_and_hazards.md). -/

namespace Sys2Proof.Machine

/-! ### Runs (rules R64, R140, R161) -/

/-- Settles O10: the frame is taken by one step a byte. -/
theorem frameArrivesByItsLength : Obligations.FrameArrivesByItsLength := fun _ _ _ _ hi hh hl hc =>
  run_takes_frame hi hh hl hc

/-- Settles O18, by induction on the number of steps. -/
theorem everyRunIsSafe : Obligations.EveryRunIsSafe := by
  intro n
  induction n with
  | zero => exact fun s => ⟨s, run_zero s⟩
  | succ n ih =>
    intro s
    obtain ⟨t, ht⟩ := step_next s
    obtain ⟨u, hu⟩ := ih t
    exact ⟨u, (run_succ n ht).trans hu⟩

/-- Settles O14: the first step is the reset event, and the second takes a byte as the first of a word. -/
theorem resetForgetsTheFrame : Obligations.ResetForgetsTheFrame := by
  intro s b rest hh hc
  have htake := step_takes_wordByte (s := State.resetEvent { s with host := [] }) rfl rfl hc
  exact ⟨_, (run_succ 1 (step_of_reset hh)).trans (run_succ 0 htake), rfl, rfl, rfl, rfl, rfl, rfl⟩

/-- Settles O15: the values are those of `State.reset`. -/
theorem resetStateHasTheSpecifiedValues : Obligations.ResetStateHasTheSpecifiedValues :=
  ⟨zeroLanes_getElem, rfl, rfl, rfl⟩

/-- Settles O16: the four response bytes of INIT drain one a step, and no payload is arriving then. -/
theorem afterResetAsAfterInit : Obligations.AfterResetAsAfterInit := by
  intro s hh
  have hrecv : s.startMessage.accept.recv = .respond [0, 0, 0, 0] := congrArg Recv.respond acceptedWord_absorbing
  refine ⟨_, _, exec_init s, run_drains (s := s.startMessage.accept) _ hh hrecv (List.cons_ne_nil _ _), ?_⟩
  exact { lanes := rfl, phase := rfl, reason := rfl, recv := rfl, staging := fun _ _ => rfl, cmdPort := rfl
          rspPort := rfl, host := rfl }

/-! ### What a command leaves alone (rules R46, R143) -/

section
variable (s : State)

@[simp] theorem acceptedState_init : acceptedState .init s = s.startMessage.accept := rfl

@[simp] theorem acceptedState_absorb (block : List Byte) :
    acceptedState (.absorb block) s = (s.absorbBlock block).accept := rfl

@[simp] theorem acceptedState_final (tail : List Byte) :
    acceptedState (.final tail) s = State.accept { s.absorbBlock (pad tail) with phase := .squeezing } := rfl

@[simp] theorem acceptedState_squeeze : acceptedState .squeeze s = s.sendResponse false (squeeze s.lanes) := rfl

theorem acceptedState_ports (i : Instr) : (acceptedState i s).cmdPort = s.cmdPort ∧
    (acceptedState i s).rspPort = s.rspPort ∧ (acceptedState i s).host = s.host := by
  cases i <;> simp

theorem acceptedState_reason {i : Instr} (hi : i ≠ .init) : (acceptedState i s).reason = s.reason := by
  cases i <;> simp at hi ⊢

end

/-- Settles O24: neither the effect of an accepted command nor a rejection writes a port. -/
theorem commandsLeaveThePortsAlone : Obligations.CommandsLeaveThePortsAlone := by
  intro i s
  rcases exec_cases i s with ⟨ha, hx⟩ | ⟨-, c, hx⟩
  · obtain ⟨hcmd, hrsp, hhost⟩ := acceptedState_ports s i
    exact ⟨_, hx, hcmd, hrsp, hhost, fun h => absurd (ha.symm.trans h) (by decide)⟩
  · exact ⟨_, hx, rfl, rfl, rfl, fun _ => ⟨c, rfl⟩⟩

/-! ### The writers of the lanes, `PHASE` and `REASON` (rules R23, R27, R28) -/

/-- Settles O26: of the accepted commands SQUEEZE alone leaves the lanes, and ABSORB and FINAL are accepted in ABSORBING
only. -/
theorem onlyTheseOperationsTouchTheLanes : Obligations.OnlyTheseOperationsTouchTheLanes := by
  intro s t h
  rcases step_writes_status h with ⟨i, hserves, ha, rfl⟩ | ⟨c, rfl⟩ | ⟨hreset, rfl⟩ | ⟨hlanes, -, -⟩
  · have hp := acceptedIn_phase ha
    cases i with
    | init => exact .inr (.inr (.inl ⟨hserves, rfl⟩))
    | absorb block => exact .inr (.inr (.inr (.inl ⟨block, hserves, hp.2, by simp [absorb]⟩)))
    | final tail => exact .inr (.inr (.inr (.inr ⟨tail, hserves, hp.2, by simp [absorb]⟩)))
    | squeeze => exact .inl rfl
  · exact .inl rfl
  · exact .inr (.inl ⟨hreset, rfl⟩)
  · exact .inl hlanes

/-- Settles O27: of the accepted commands INIT and FINAL alone write `PHASE`. -/
theorem onlyTheseOperationsWritePhase : Obligations.OnlyTheseOperationsWritePhase := by
  intro s t h hne
  rcases step_writes_status h with ⟨i, hserves, ha, rfl⟩ | ⟨c, rfl⟩ | ⟨hreset, rfl⟩ | ⟨-, hphase, -⟩
  · have hp := acceptedIn_phase ha
    cases i with
    | init => exact .inl ⟨rfl, .inr hserves⟩
    | absorb block => exact (hne (by simp)).elim
    | final tail => exact .inr (.inl ⟨by simp, hp.2, tail, hserves⟩)
    | squeeze => exact absurd rfl hne
  · exact .inr (.inr ⟨rfl, c, rfl⟩)
  · exact .inl ⟨rfl, .inl hreset⟩
  · exact absurd hphase hne

/-- Settles O28: of the accepted commands INIT alone writes `REASON`. -/
theorem onlyTheseOperationsWriteReason : Obligations.OnlyTheseOperationsWriteReason := by
  intro s t h hne
  rcases step_writes_status h with ⟨i, hserves, -, rfl⟩ | ⟨c, rfl⟩ | ⟨hreset, rfl⟩ | ⟨-, -, hreason⟩
  · by_cases hi : i = .init
    · subst hi
      exact .inl ⟨rfl, .inr hserves⟩
    · exact absurd (acceptedState_reason s.afterAct hi) hne
  · exact .inr ⟨c, rfl, rfl⟩
  · exact .inl ⟨rfl, .inl hreset⟩
  · exact absurd hreason hne

/-! ### ERROR (rule R144) -/

theorem phaseCheck_of_error {i : Instr} {s : State} (he : s.phase = .error) (hi : i ≠ .init) :
    phaseCheck i s = some .errorPhase := by
  cases i with
  | init => exact absurd rfl hi
  | absorb block => exact phaseCause_error he
  | final tail => exact phaseCause_error he
  | squeeze => exact phaseCause_error he

theorem rejectedWord_errorPhase : le32Bytes (responseWord true .error (.rejected .errorPhase)) = [0x05, 0x05, 0x00, 0x00] := by
  decide

/-- Settles O30: the phase check of every command but INIT fails in ERROR. -/
theorem errorAcceptsOnlyInit : Obligations.ErrorAcceptsOnlyInit := fun _ _ hwf he hi =>
  ⟨exec_of_phaseCheck hwf (phaseCheck_of_error he hi), rfl, congrArg Recv.respond rejectedWord_errorPhase⟩

/-! ### A platform of engines (rule R152) -/

theorem Platform.stepEngine_of_step {p : Platform} {k : Nat} {s t : State} (hk : p.engines[k]? = some s)
    (hs : step s = .next t) : p.stepEngine k = .next { engines := p.engines.set k t } := by
  rw [Platform.stepEngine, hk]
  simp only [hs]

/-- Settles O36: the platform's step sets entry `k` of the list of engines. -/
theorem enginesShareNothing : Obligations.EnginesShareNothing := by
  intro p q k s t hk hs hq
  rw [Platform.stepEngine_of_step hk hs, Host.Outcome.next.injEq] at hq
  subst hq
  obtain ⟨hlt, -⟩ := List.getElem?_eq_some_iff.mp hk
  exact ⟨List.getElem?_set_self hlt, List.length_set, fun j hj => List.getElem?_set_ne hj.symm⟩

end Sys2Proof.Machine

/-! PROOF. The invariant of the engine: it holds at reset, every step keeps it, and it makes every digest the digest of a
message (rules R28, R30, R31, R68, R120). -/

namespace Sys2Proof.Machine

/-! ### Legal responses and what the lanes hold (rules R68, R120) -/

theorem LegalResponse.ne_nil {frame : List Byte} (h : LegalResponse frame) : frame ≠ [] := by
  rcases h with ⟨word, -, rfl⟩ | ⟨M, rfl⟩ <;> exact List.cons_ne_nil _ _

theorem legalResponse_accepted {phase : Phase} (hp : phase ≠ .error) :
    LegalResponse (le32Bytes (responseWord false phase .none)) := by
  refine .inl ⟨_, ?_, rfl⟩
  cases phase with
  | absorbing => decide
  | squeezing => decide
  | error => exact absurd rfl hp

section
variable {s t : State}

theorem lanesHoldMessage_absorbing (hp : s.phase = .absorbing) :
    s.LanesHoldMessage ↔ ∃ k M, M.length = 136 * k ∧ s.lanes = absorbBlocks k zeroLanes M := by
  rw [State.LanesHoldMessage, hp]

theorem lanesHoldMessage_squeezing (hp : s.phase = .squeezing) :
    s.LanesHoldMessage ↔ ∃ M, s.lanes = absorbMessage zeroLanes M := by
  rw [State.LanesHoldMessage, hp]

/-- The zero state holds the empty message. -/
theorem lanesHoldMessage_of_zeroLanes (hp : s.phase = .absorbing) (hl : s.lanes = zeroLanes) : s.LanesHoldMessage :=
  (lanesHoldMessage_absorbing hp).mpr ⟨0, [], rfl, hl⟩

/-! ### States that have the invariant -/

theorem recvWellFormed_of_legalResponse {frame : List Byte} (hr : t.recv = .respond frame) (h : LegalResponse frame) :
    t.RecvWellFormed := by
  rw [State.RecvWellFormed, hr]
  exact ⟨h.ne_nil, [], h⟩

/-- A state that differs in the ports, the host, the core and the receive state only. -/
theorem State.Inv.of_status_eq (h : s.Inv) (hstatus : t.lanes = s.lanes ∧ t.phase = s.phase ∧ t.reason = s.reason)
    (hstaging : t.staging.length ≤ 255) (hrecv : t.RecvWellFormed) : t.Inv := by
  obtain ⟨hl, hp, hr⟩ := hstatus
  refine ⟨?_, hstaging, hrecv, ?_⟩
  · simpa only [State.ReasonMatchesPhase, hp, hr] using h.reasonMatchesPhase
  · simpa only [State.LanesHoldMessage, hp, hl] using h.lanesHoldMessage

/-- A state that an accepted command leaves. -/
theorem State.Inv.of_accepted {frame : List Byte} (hp : t.phase ≠ .error) (hr : t.reason = .none) (hs : t.staging = [])
    (hrecv : t.recv = .respond frame) (hlegal : LegalResponse frame) (hl : t.LanesHoldMessage) : t.Inv where
  reasonMatchesPhase := by simp [State.ReasonMatchesPhase, hp, hr]
  stagingFits := by simp [hs]
  recvWellFormed := recvWellFormed_of_legalResponse hrecv hlegal
  lanesHoldMessage := hl

/-! ### The outside world's act, and reset -/

theorem State.Inv.afterAct (h : s.Inv) : s.afterAct.Inv :=
  ⟨h.reasonMatchesPhase, h.stagingFits, h.recvWellFormed, h.lanesHoldMessage⟩

theorem State.Inv.offer (h : s.Inv) (bytes : List Byte) : State.Inv { s with cmdPort := bytes } :=
  ⟨h.reasonMatchesPhase, h.stagingFits, h.recvWellFormed, h.lanesHoldMessage⟩

theorem resetEvent_inv (s : State) : s.resetEvent.Inv where
  reasonMatchesPhase := by simp [State.ReasonMatchesPhase]
  stagingFits := by simp
  recvWellFormed := by simp [State.RecvWellFormed]
  lanesHoldMessage := lanesHoldMessage_of_zeroLanes rfl rfl

/-! ### Bytes across the ports -/

/-- Up to four word bytes are a partial word, or a whole one that awaits all of its payload. -/
theorem recvOfWordBytes_wellFormed {got : List Byte} (h : got.length ≤ 4) (hr : t.recv = recvOfWordBytes got)
    (hs : t.staging = []) : t.RecvWellFormed := by
  unfold State.RecvWellFormed
  by_cases h4 : got.length = 4
  · obtain ⟨b0, b1, b2, b3, rfl⟩ := List.length_eq_four.mp h4
    simp [hr, hs, recvOfWordBytes]
  · simp only [hr, recvOfWordBytes_short h4]
    omega

theorem State.Inv.takeWordByte {got : List Byte} (h : s.Inv) (hr : s.recv = .word got) : (s.takeWordByte got).Inv := by
  rcases s.takeWordByte_cases got with heq | ⟨b, rest, -, heq⟩ <;> rw [heq]
  · exact h
  · have hgot : got.length < 4 := by simpa only [State.RecvWellFormed, hr] using h.recvWellFormed
    exact h.of_status_eq ⟨rfl, rfl, rfl⟩ (by simp)
      (recvOfWordBytes_wellFormed (got := got ++ [b]) (by simpa using hgot) rfl rfl)

theorem State.Inv.takePayloadByte {word : Word32} (h : s.Inv) (hr : s.recv = .payload word)
    (hlt : s.staging.length < payloadLength word) : s.takePayloadByte.Inv := by
  rcases s.takePayloadByte_cases with heq | ⟨b, rest, -, heq⟩ <;> rw [heq]
  · exact h
  · have hlen : (s.staging ++ [b]).length ≤ payloadLength word := by simpa using hlt
    exact h.of_status_eq ⟨rfl, rfl, rfl⟩ (hlen.trans (payloadLength_le word))
      (by simpa only [State.RecvWellFormed, hr] using hlen)

theorem State.Inv.drainByte {pending : List Byte} (h : s.Inv) (hr : s.recv = .respond pending) :
    (s.drainByte pending).Inv := by
  obtain ⟨hne, sent, hlegal⟩ : pending ≠ [] ∧ ∃ sent, LegalResponse (sent ++ pending) := by
    simpa only [State.RecvWellFormed, hr] using h.recvWellFormed
  obtain ⟨b, more, rfl⟩ := List.exists_cons_of_ne_nil hne
  rw [State.drainByte_cons]
  refine h.of_status_eq ⟨rfl, rfl, rfl⟩ h.stagingFits ?_
  by_cases hm : more = []
  · simp [State.RecvWellFormed, hm]
  · have hrest : LegalResponse ((sent ++ [b]) ++ more) := by simpa using hlegal
    simpa [State.RecvWellFormed, hm] using ⟨sent ++ [b], hrest⟩

/-! ### Commands -/

theorem reject_inv (s : State) (c : Cause) : (s.reject c).Inv where
  reasonMatchesPhase := by simp [State.ReasonMatchesPhase]
  stagingFits := by simp
  recvWellFormed := recvWellFormed_of_legalResponse rfl (.inl ⟨_, rejectedWord_mem c, rfl⟩)
  lanesHoldMessage := trivial

theorem State.Inv.acceptedState {i : Instr} (h : s.Inv) (ha : acceptedIn i s = true) : (acceptedState i s).Inv := by
  have hp := acceptedIn_phase ha
  cases i with
  | init =>
    exact .of_accepted (by simp) rfl rfl rfl (legalResponse_accepted (by simp)) (lanesHoldMessage_of_zeroLanes rfl rfl)
  | absorb block =>
    obtain ⟨hblock, hp⟩ := hp
    have hr := reason_none_of_phase h.reasonMatchesPhase (by simp [hp])
    obtain ⟨k, M, hM, hl⟩ := (lanesHoldMessage_absorbing hp).mp h.lanesHoldMessage
    refine .of_accepted (by simp [hp]) (by simp [hr]) rfl (State.accept_recv _)
      (by simpa [hp, hr] using legalResponse_accepted (by decide)) ?_
    exact (lanesHoldMessage_absorbing (by simp [hp])).mpr
      ⟨k + 1, M ++ block, by simp [hM, hblock]; omega, by simp [hl, absorbBlocks_concat k _ M block hM hblock]⟩
  | final tail =>
    obtain ⟨htail, hp⟩ := hp
    have hr := reason_none_of_phase h.reasonMatchesPhase (by simp [hp])
    obtain ⟨k, M, hM, hl⟩ := (lanesHoldMessage_absorbing hp).mp h.lanesHoldMessage
    refine .of_accepted (by simp) (by simp [hr]) rfl (State.accept_recv _)
      (by simpa [hr] using legalResponse_accepted (by decide)) ?_
    exact (lanesHoldMessage_squeezing (by simp)).mpr
      ⟨M ++ tail, by simp [hl, absorbMessage_append k _ M tail hM htail]⟩
  | squeeze =>
    have hr := reason_none_of_phase h.reasonMatchesPhase (by simp [hp])
    obtain ⟨M, hl⟩ := (lanesHoldMessage_squeezing hp).mp h.lanesHoldMessage
    refine .of_accepted (by simp [hp]) (by simp [hr]) rfl (State.sendResponse_recv ..) (.inr ⟨M, ?_⟩)
      ((lanesHoldMessage_squeezing (by simp [hp])).mpr ⟨M, by simp [hl]⟩)
    rw [hp, hr, hl, squeeze_absorbMessage, acceptedWord_squeezing]
    rfl

end

/-- Settles O31: each outcome of a step keeps the invariant. -/
theorem invariantIsKept : Obligations.InvariantIsKept := by
  intro s t h hs
  rcases step_cases hs with ⟨got, hr, rfl⟩ | ⟨word, hr, hlt, rfl⟩ | ⟨i, -, ha, rfl⟩ | ⟨-, c, rfl⟩ |
    ⟨pending, hr, rfl⟩ | ⟨pending, -, rfl⟩ | ⟨b, acts, -, rfl⟩ | ⟨acts, -, rfl⟩
  · exact h.afterAct.takeWordByte hr
  · exact h.afterAct.takePayloadByte hr hlt
  · exact h.afterAct.acceptedState ha
  · exact reject_inv _ c
  · exact h.afterAct.drainByte hr
  · exact h.afterAct
  · exact h.afterAct.offer _
  · exact resetEvent_inv _

/-- Settles O32: the reset state waits for a word and holds the empty message. -/
theorem resetHasTheInvariant : Obligations.ResetHasTheInvariant where
  reasonMatchesPhase := by simp [State.ReasonMatchesPhase, State.reset]
  stagingFits := by simp [State.reset]
  recvWellFormed := by simp [State.RecvWellFormed, State.reset]
  lanesHoldMessage := lanesHoldMessage_of_zeroLanes rfl rfl

/-- Settles O33: in SQUEEZING the invariant names the message whose digest the lanes hold. -/
theorem digestIsOfAMessage : Obligations.DigestIsOfAMessage := by
  intro s h hp
  have hr := reason_none_of_phase h.reasonMatchesPhase (by simp [hp])
  obtain ⟨M, hl⟩ := (lanesHoldMessage_squeezing hp).mp h.lanesHoldMessage
  refine ⟨_, M, exec_squeeze_of_phase hp, ?_⟩
  rw [State.sendResponse_recv, hp, hr, hl, squeeze_absorbMessage, acceptedWord_squeezing]

end Sys2Proof.Machine

/-! PROOF. Runs from states that agree on everything but the working state, the free values used and an idle staging
buffer (rules R30, R32, R122). -/

namespace Sys2Proof.Machine

/-- Both outcomes are next states, and these agree. -/
def NextAgree (o o' : Host.Outcome State Fault Refusal) : Prop :=
  ∃ s' t', o = .next s' ∧ o' = .next t' ∧ s'.AgreesWith t'

section
variable {s t : State}

theorem State.AgreesWith.next (h : s.AgreesWith t) : NextAgree (.next s) (.next t) := ⟨s, t, rfl, rfl, h⟩

/-! ### Operations on states that agree -/

theorem State.AgreesWith.withStatus (h : s.AgreesWith t) (lanes : Lanes) (phase : Phase) (reason : Reason) :
    State.AgreesWith { s with lanes := lanes, phase := phase, reason := reason }
      { t with lanes := lanes, phase := phase, reason := reason } :=
  { h with lanes := rfl, phase := rfl, reason := rfl }

theorem State.AgreesWith.withPhase (h : s.AgreesWith t) (phase : Phase) :
    State.AgreesWith { s with phase := phase } { t with phase := phase } :=
  { h with phase := rfl }

theorem State.AgreesWith.withHost (h : s.AgreesWith t) (acts : List HostAct) :
    State.AgreesWith { s with host := acts } { t with host := acts } :=
  { h with host := rfl }

theorem State.AgreesWith.sendResponse (h : s.AgreesWith t) (rej : Bool) (digest : List Byte) :
    (s.sendResponse rej digest).AgreesWith (t.sendResponse rej digest) :=
  { h with recv := by simp [h.phase, h.reason], staging := fun _ _ => rfl }

theorem State.AgreesWith.reject (h : s.AgreesWith t) (c : Cause) : (s.reject c).AgreesWith (t.reject c) := by
  refine State.AgreesWith.sendResponse ?_ true []
  simpa only [← h.lanes] using h.withStatus s.lanes .error (.rejected c)

theorem State.AgreesWith.absorbBlock (h : s.AgreesWith t) (P : List Byte) :
    (s.absorbBlock P).AgreesWith (t.absorbBlock P) := by
  rw [State.absorbBlock, State.absorbBlock, h.lanes]
  exact { h with lanes := rfl }

theorem State.AgreesWith.afterAct (h : s.AgreesWith t) : s.afterAct.AgreesWith t.afterAct :=
  { h with host := congrArg List.tail h.host }

theorem State.AgreesWith.offer (h : s.AgreesWith t) (b : Byte) : State.AgreesWith
    { s with cmdPort := s.cmdPort ++ [b] } { t with cmdPort := t.cmdPort ++ [b] } :=
  { h with cmdPort := by rw [h.cmdPort] }

theorem State.AgreesWith.resetEvent (h : s.AgreesWith t) : s.resetEvent.AgreesWith t.resetEvent :=
  { h with lanes := rfl, phase := rfl, reason := rfl, recv := rfl, staging := fun _ _ => rfl }

/-! ### Commands -/

theorem State.AgreesWith.guarded (h : s.AgreesWith t) (ok : Bool) (want : Phase) {effect : State → State}
    (he : (effect s).AgreesWith (effect t)) : (guarded ok want effect s).AgreesWith (guarded ok want effect t) := by
  have hcause : phaseCause want t = phaseCause want s := by rw [phaseCause, phaseCause, h.phase]
  unfold Machine.guarded
  rw [hcause]
  cases ok with
  | false => exact h.reject _
  | true =>
    cases phaseCause want s with
    | none => exact he
    | some c => exact h.reject c

theorem State.AgreesWith.exec (h : s.AgreesWith t) (i : Instr) : NextAgree (exec i s) (exec i t) := by
  cases i with
  | init => exact ((h.withStatus zeroLanes .absorbing .none).sendResponse false []).next
  | absorb block =>
    refine (h.guarded _ _ ?_).next
    exact (h.absorbBlock block).sendResponse false []
  | final tail =>
    refine (h.guarded _ _ ?_).next
    exact ((h.absorbBlock (pad tail)).withPhase .squeezing).sendResponse false []
  | squeeze => exact (h.guarded _ _ (by rw [h.lanes]; exact h.sendResponse false _)).next

theorem State.AgreesWith.serveFrame (h : s.AgreesWith t) {word : Word32} (hr : s.recv = .payload word) :
    NextAgree (serveFrame word s) (serveFrame word t) := by
  unfold Machine.serveFrame
  rw [← h.staging word hr]
  cases decodeFrame word s.staging with
  | ok i => exact h.exec i
  | error why => exact (h.reject _).next

/-! ### The engine's move -/

theorem State.AgreesWith.takeWordByte (h : s.AgreesWith t) (got : List Byte) :
    (s.takeWordByte got).AgreesWith (t.takeWordByte got) := by
  cases hc : s.cmdPort with
  | nil => rwa [s.takeWordByte_nil got hc, t.takeWordByte_nil got (h.cmdPort ▸ hc)]
  | cons b rest =>
    rw [s.takeWordByte_cons got hc, t.takeWordByte_cons got (h.cmdPort ▸ hc)]
    exact { h with cmdPort := rfl, recv := rfl, staging := fun _ _ => rfl }

theorem State.AgreesWith.takePayloadByte (h : s.AgreesWith t) {word : Word32} (hr : s.recv = .payload word) :
    s.takePayloadByte.AgreesWith t.takePayloadByte := by
  cases hc : s.cmdPort with
  | nil => rwa [s.takePayloadByte_nil hc, t.takePayloadByte_nil (h.cmdPort ▸ hc)]
  | cons b rest =>
    rw [s.takePayloadByte_cons hc, t.takePayloadByte_cons (h.cmdPort ▸ hc)]
    exact { h with cmdPort := rfl, staging := fun _ _ => congrArg (· ++ [b]) (h.staging word hr) }

/-- After a drained byte no payload is arriving, so the staging buffers may differ. -/
theorem State.AgreesWith.drainByte (h : s.AgreesWith t) (pending : List Byte) :
    (s.drainByte pending).AgreesWith (t.drainByte pending) := by
  cases pending with
  | nil => exact { h with recv := rfl, staging := fun _ hw => nomatch hw }
  | cons b more =>
    rw [State.drainByte_cons, State.drainByte_cons]
    refine { h with recv := rfl, rspPort := by rw [h.rspPort], staging := fun word hw => ?_ }
    split_ifs at hw

theorem State.AgreesWith.engineMove (h : s.AgreesWith t) (ready : Bool) :
    NextAgree (engineMove ready s) (engineMove ready t) := by
  cases hr : s.recv with
  | word got =>
    rw [engineMove_word ready hr, engineMove_word ready (h.recv ▸ hr)]
    exact (h.takeWordByte got).next
  | payload word =>
    have hst := h.staging word hr
    rcases Nat.lt_or_ge s.staging.length (payloadLength word) with hlt | hle
    · rw [engineMove_take ready hr hlt, engineMove_take ready (h.recv ▸ hr) (hst ▸ hlt)]
      exact (h.takePayloadByte hr).next
    · rw [engineMove_serve ready hr hle, engineMove_serve ready (h.recv ▸ hr) (hst ▸ hle)]
      exact h.serveFrame hr
  | respond pending =>
    rw [engineMove_respond ready hr, engineMove_respond ready (h.recv ▸ hr)]
    cases ready with
    | false => exact h.next
    | true => exact (h.drainByte pending).next

/-! ### Steps and runs -/

theorem State.AgreesWith.step (h : s.AgreesWith t) : NextAgree (step s) (step t) := by
  rcases step_acts s with ⟨ready, hm, -⟩ | ⟨b, acts, hh, -⟩ | ⟨acts, hh, -⟩
  · have hm' : t.EngineMoves ready := by simpa only [State.EngineMoves, h.host] using hm
    rw [step_of_engineMoves hm, step_of_engineMoves hm']
    exact h.afterAct.engineMove ready
  · rw [step_of_offer hh, step_of_offer (h.host ▸ hh)]
    exact ((h.withHost acts).offer b).next
  · rw [step_of_reset hh, step_of_reset (h.host ▸ hh)]
    exact (h.withHost acts).resetEvent.next

end

/-- Settles O34, by induction on the number of steps. -/
theorem workingStateIsUnobservable : Obligations.WorkingStateIsUnobservable := by
  intro n
  induction n with
  | zero =>
    intro s t s' h hrun
    rw [run_zero, Host.Outcome.next.injEq] at hrun
    exact ⟨t, run_zero t, hrun ▸ h⟩
  | succ n ih =>
    intro s t s' h hrun
    obtain ⟨u, v, hu, hv, huv⟩ := h.step
    rw [run_succ n hu] at hrun
    rw [run_succ n hv]
    exact ih u v s' huv hrun

end Sys2Proof.Machine

/-! PROOF. A whole message through the ports: its expansion into commands, accepted one after another, and its digest
(rules R70, R119, R163); and absorption byte by byte (rule R44). -/

namespace Sys2Proof.Machine

/-! ### Runs to a state with a property -/

/-- Some run from `s` ends in a state with the property `P`. -/
def State.Reaches (s : State) (P : State → Prop) : Prop := ∃ n t, run n s = .next t ∧ P t

theorem State.Reaches.refl {s : State} {P : State → Prop} (h : P s) : s.Reaches P := ⟨0, s, run_zero s, h⟩

theorem State.Reaches.trans {s : State} {P Q : State → Prop} (h : s.Reaches P) (hPQ : ∀ t, P t → t.Reaches Q) :
    s.Reaches Q := by
  obtain ⟨m, t, hm, ht⟩ := h
  obtain ⟨n, u, hn, hu⟩ := hPQ t ht
  exact ⟨m + n, u, (run_add m n hm).trans hn, hu⟩

/-! ### Serving one accepted command (rules R64, R142) -/

theorem exec_of_accepted {i : Instr} {s : State} (ha : acceptedIn i s = true) : exec i s = .next (acceptedState i s) := by
  rcases exec_cases i s with ⟨-, hx⟩ | ⟨hn, -⟩
  · exact hx
  · exact absurd (ha.symm.trans hn) (by decide)

/-- The frame of `i` has arrived, and the bytes `rest` are left on the command port. -/
def State.holdingFrame (s : State) (i : Instr) (rest : List Byte) : State :=
  { s with recv := .payload (encodeWord i), staging := i.payload, cmdPort := rest }

section
variable (s : State) (i : Instr) (rest : List Byte)

@[simp] theorem State.holdingFrame_lanes : (s.holdingFrame i rest).lanes = s.lanes := rfl
@[simp] theorem State.holdingFrame_phase : (s.holdingFrame i rest).phase = s.phase := rfl
@[simp] theorem State.holdingFrame_reason : (s.holdingFrame i rest).reason = s.reason := rfl

end

/-- A free-running engine between two commands: idle, never rejected since the message began, with these lanes in this
phase, and these bytes at its two ports. -/
structure State.Between (s : State) (lanes : Lanes) (phase : Phase) (commands responses : List Byte) : Prop where
  idle : s.Idle
  host : s.host = []
  lanes : s.lanes = lanes
  phase : s.phase = phase
  reason : s.reason = .none
  commands : s.cmdPort = commands
  responses : s.rspPort = responses

/-- An accepted command that leaves no reason and `frame` to send: the engine goes on to the next command. -/
theorem reaches_of_accepted {s : State} {i : Instr} {frame rest : List Byte} (hi : s.Idle) (hh : s.host = [])
    (hc : s.cmdPort = encode i ++ rest) (hwf : i.WellFormed) (ha : phaseCheck i s = none)
    (hf : (acceptedState i (s.holdingFrame i rest)).recv = .respond frame) (hne : frame ≠ [])
    (hr : (acceptedState i (s.holdingFrame i rest)).reason = .none) :
    s.Reaches fun u => u.Between (acceptedState i (s.holdingFrame i rest)).lanes
      (acceptedState i (s.holdingFrame i rest)).phase rest (s.rspPort ++ frame) := by
  obtain ⟨hlen, hd⟩ := legalWord i hwf
  obtain ⟨hcmd, hrsp, hhost⟩ := acceptedState_ports (s.holdingFrame i rest) i
  have haccepted : acceptedIn i (s.holdingFrame i rest) = true := by
    rw [acceptedIn_eq_phaseCheck _ hwf, beq_iff_eq]
    exact ha
  exact ⟨_, _, run_command hi hh hc hlen hd (exec_of_accepted haccepted) (hhost.trans hh) hf hne,
    { idle := rfl, host := hhost.trans hh, lanes := rfl, phase := rfl, reason := hr, commands := hcmd
      responses := congrArg (· ++ frame) hrsp }⟩

theorem reaches_after_init {s : State} {rest : List Byte} (hi : s.Idle) (hh : s.host = [])
    (hc : s.cmdPort = encode .init ++ rest) :
    s.Reaches fun t => t.Between zeroLanes .absorbing rest (s.rspPort ++ [0x00, 0x00, 0x00, 0x00]) :=
  reaches_of_accepted hi hh hc rfl rfl (congrArg Recv.respond acceptedWord_absorbing) (by simp) rfl

section
variable {s : State} {A : Lanes} {rest responses : List Byte}

theorem reaches_after_absorb {block : List Byte} (hb : block.length = 136)
    (h : s.Between A .absorbing (encode (.absorb block) ++ rest) responses) :
    s.Reaches fun t => t.Between (absorb A block) .absorbing rest (responses ++ [0x00, 0x00, 0x00, 0x00]) := by
  obtain ⟨hi, hh, hl, hp, hr, hc, rfl⟩ := h
  have hreach := reaches_of_accepted hi hh hc ((absorb_wellFormed_iff block).mpr hb)
    ((phaseCause_eq_none (by decide)).mpr hp) (State.accept_recv _) (List.cons_ne_nil _ _) (by simp [hr])
  simpa [hl, hp, hr, acceptedWord_absorbing] using hreach

theorem reaches_after_final {tail : List Byte} (ht : tail.length ≤ 135)
    (h : s.Between A .absorbing (encode (.final tail) ++ rest) responses) :
    s.Reaches fun t => t.Between (absorb A (pad tail)) .squeezing rest (responses ++ [0x02, 0x00, 0x00, 0x00]) := by
  obtain ⟨hi, hh, hl, hp, hr, hc, rfl⟩ := h
  have hreach := reaches_of_accepted hi hh hc ((final_wellFormed_iff tail).mpr ht)
    ((phaseCause_eq_none (by decide)).mpr hp) (State.accept_recv _) (List.cons_ne_nil _ _) (by simp [hr])
  simpa [hl, hr, acceptedWord_squeezing] using hreach

theorem reaches_after_squeeze (h : s.Between A .squeezing (encode .squeeze ++ rest) responses) :
    s.Reaches fun t => t.Between A .squeezing rest (responses ++ [0x02, 0x00, 0x00, 0x00] ++ squeeze A) := by
  obtain ⟨hi, hh, hl, hp, hr, hc, rfl⟩ := h
  have hreach := reaches_of_accepted hi hh hc rfl ((phaseCause_eq_none (by decide)).mpr hp)
    (State.sendResponse_recv ..) (List.cons_ne_nil _ _) (by simp [hr])
  simpa [hl, hp, hr, acceptedWord_squeezing] using hreach

/-! ### A message (rules R70, R119) -/

/-- The commands of the first `k` full blocks, by induction on `k`. -/
theorem reaches_after_blocks {M : List Byte} (k : Nat) (hk : k ≤ fullBlocks M)
    (h : s.Between A .absorbing (((List.range k).map fun b => Instr.absorb (blockOf M b)).flatMap encode ++ rest)
      responses) :
    s.Reaches fun t => t.Between (absorbBlocks k A M) .absorbing rest
      (responses ++ (List.replicate k [(0x00 : Byte), 0x00, 0x00, 0x00]).flatten) := by
  induction k generalizing rest with
  | zero => exact .refl (by simpa [absorbBlocks] using h)
  | succ k ih =>
    rw [List.range_succ, List.map_append, List.flatMap_append, List.append_assoc] at h
    refine (ih (by omega) h).trans fun t ht => ?_
    have hblock := reaches_after_absorb (blockOf_length (M := M) (b := k) (by omega)) (by simpa using ht)
    simpa [absorbBlocks_succ, List.replicate_succ'] using hblock

/-- The commands of a message after its INIT, from any lanes. -/
theorem reaches_after_message {M : List Byte}
    (h : s.Between A .absorbing ((expandSha3 M).tail.flatMap encode ++ rest) responses) :
    s.Reaches fun t => t.Between (absorbMessage A M) .squeezing rest
      (responses ++ (List.replicate (M.length / 136) [(0x00 : Byte), 0x00, 0x00, 0x00]).flatten ++
        [0x02, 0x00, 0x00, 0x00] ++ [0x02, 0x00, 0x00, 0x00] ++ squeeze (absorbMessage A M)) := by
  rw [expandSha3, List.cons_append, List.tail_cons, List.flatMap_append, List.append_assoc] at h
  refine (reaches_after_blocks (fullBlocks M) le_rfl h).trans fun t ht => ?_
  refine (reaches_after_final (tailOf_length_le M) (by simpa using ht)).trans fun u hu => ?_
  simpa [absorbMessage, fullBlocks] using reaches_after_squeeze hu

end

/-- Settles O35: INIT leaves the zero state of an empty message, whatever was there before. -/
theorem expansionAnswersSha3OfTheMessage : Obligations.ExpansionAnswersSha3OfTheMessage := by
  intro s M rest hi hh hc
  obtain ⟨n, t, hrun, ht⟩ := (reaches_after_init hi hh
    (rest := (expandSha3 M).tail.flatMap encode ++ rest) (by rw [hc]; simp [expandSha3])).trans
      fun _ => reaches_after_message
  exact ⟨n, t, hrun, ht.idle, ht.commands, ht.phase, ht.reason, ht.lanes, ht.responses⟩

/-- Settles O37: the reset values are those of an empty message. -/
theorem messageMayBeginAfterReset : Obligations.MessageMayBeginAfterReset := by
  intro s M rest hi hh hl hp hr hc
  obtain ⟨n, t, hrun, ht⟩ := reaches_after_message ⟨hi, hh, hl, hp, hr, hc, rfl⟩
  exact ⟨n, t, hrun, ht.idle, ht.commands, ht.phase, ht.responses⟩

/-! ### Absorbing byte by byte (rule R44) -/

/-- Settles O40: byte `k` lies in a rate lane exactly when `k` is below 136, and the lane of the block there has that
byte. -/
theorem blockXorIsBytewise : Obligations.BlockXorIsBytewise := by
  intro A P k _
  have hrate : k.val / 8 < 17 ↔ k.val < 136 := by omega
  rw [stateByte, stateByte, xorBlock_getElem _ _ _ (by omega)]
  simp only [hrate]
  split_ifs
  · rw [laneByte_xor, laneByte_laneOfBytes _ _ _ (Nat.mod_lt _ (by decide)), Nat.div_add_mod]
  · rfl

end Sys2Proof.Machine

/-! PROOF. The stages of the permutation bit by bit, its tables, and the core's schedule (40_keccak_permutation.md, rules
R82 to R94). -/

namespace Sys2Proof.Machine

/-! ### Bits of the lanes `[x, y]` (rule R80) -/

/-- A state is the bits of its lanes `[x, y]`. -/
theorem lanes_eq_of_getLsbD_eq {A B : Lanes}
    (h : ∀ (x y : Fin 5) (z : Fin 64), (laneAt A x y).getLsbD z = (laneAt B x y).getLsbD z) : A = B :=
  lanes_eq_of_laneAt_eq fun x y => BitVec.eq_of_getLsbD_eq fun z hz => h x y ⟨z, hz⟩

theorem columnParity_getLsbD (A : Lanes) (x : Fin 5) (z : Nat) : (columnParity A)[x].getLsbD z =
    ((laneAt A x 0).getLsbD z ^^ (laneAt A x 1).getLsbD z ^^ (laneAt A x 2).getLsbD z ^^ (laneAt A x 3).getLsbD z ^^
      (laneAt A x 4).getLsbD z) := by
  rw [Fin.getElem_fin, columnParity_getElem _ _ x.isLt]
  simp only [BitVec.getLsbD_xor, Fin.eta]

theorem theta_getLsbD (A : Lanes) (x y : Fin 5) {z : Nat} (hz : z < 64) : (laneAt (theta A) x y).getLsbD z =
    ((laneAt A x y).getLsbD z ^^ (columnParity A)[x + 4].getLsbD z ^^
      (columnParity A)[x + 1].getLsbD ((z + 63) % 64)) := by
  have hleft : x - 1 = x + 4 := by revert x; decide
  rw [laneAt_theta, BitVec.getLsbD_xor, BitVec.getLsbD_xor, rotl64_getLsbD _ (by decide) hz, Bool.xor_assoc]
  simp only [hleft]
  rfl

/-- Settles O46: a bit of the column parity is the parity of five bits. -/
theorem thetaAddsTwoColumnParities : Obligations.ThetaAddsTwoColumnParities := by
  intro A x y z hz p
  rw [theta_getLsbD A x y hz, columnParity_getLsbD, columnParity_getLsbD]

theorem laneAt_pi_dest (A : Lanes) (x y : Fin 5) : laneAt (pi A) y (2 * x + 3 * y) = laneAt A x y := by
  have hsource : y + 3 * (2 * x + 3 * y) = x := by revert x y; decide
  rw [laneAt_pi, hsource]

theorem rho_getLsbD (A : Lanes) (x y : Fin 5) {z : Nat} (hz : z < 64) : (laneAt (rho A) x y).getLsbD z =
    (laneAt A x y).getLsbD ((z + 64 - RHO[x.val + 5 * y.val]) % 64) := by
  have hoffset : RHO[x.val + 5 * y.val] ≤ 63 := RHO_le ⟨x.val + 5 * y.val, by omega⟩
  rw [laneAt_rho, rotl64_getLsbD _ hoffset hz]

/-- Settles O47: pi moves a lane to the place named, and rho has rotated it there. -/
theorem rhoPiMovesAndRotatesLanes : Obligations.RhoPiMovesAndRotatesLanes := by
  intro A x y z hz
  rw [laneAt_pi_dest, rho_getLsbD A x y hz]

theorem chi_getLsbD (A : Lanes) (x y : Fin 5) {z : Nat} (hz : z < 64) : (laneAt (chi A) x y).getLsbD z =
    ((laneAt A x y).getLsbD z ^^ (!(laneAt A (x + 1) y).getLsbD z && (laneAt A (x + 2) y).getLsbD z)) := by
  simp [laneAt_chi, hz]

/-- Settles O48: chi of a row, read bit by bit. -/
theorem chiMixesEachRow : Obligations.ChiMixesEachRow := fun A x y _ hz => chi_getLsbD A x y hz

/-! ### The tables and known values (rules R84 to R86, R89, R94) -/

/-- Settles O50: every entry is evaluated beside its generating rule. -/
theorem tablesFollowTheirGeneratingRules : Obligations.TablesFollowTheirGeneratingRules := by
  unfold Obligations.TablesFollowTheirGeneratingRules
  refine ⟨?_, ?_, ?_, ?_, ?_, ?_⟩ <;> decide +kernel

/-- Settles O55: the permutation is evaluated on the zero state. -/
theorem knownPermutationValues : Obligations.KnownPermutationValues := by
  unfold Obligations.KnownPermutationValues
  decide +kernel

/-- Settles O53: the port reads the lanes back from the vector. -/
theorem corePortIsKeccakF : Obligations.CorePortIsKeccakF := fun A => by
  rw [corePort, unflatten_flatten]

/-! ### The in-place loop (rule R86) -/

theorem pi_rho_getElem (A : Lanes) (i : Fin 25) : (pi (rho A))[i] = rotl64 A[PI_SRC[i]] RHO[PI_SRC[i]] := by
  have hsource : ∀ i : Fin 25, (⟨i.val % 5, by omega⟩ + 3 * ⟨i.val / 5, by omega⟩ : Fin 5).val + 5 * (i.val % 5) =
      PI_SRC[i].val := by decide
  have hlane := hsource i
  simp only [pi, ofColumnRow, laneAt, Fin.getElem_fin, Vector.getElem_ofFn, rho]
  simp only [Fin.getElem_fin] at hlane
  simp only [hlane]

theorem pi_rho_zero (A : Lanes) : (pi (rho A))[(0 : Fin 25)] = A[(0 : Fin 25)] := by
  have hsource : PI_SRC[(0 : Fin 25)] = 0 := rfl
  have hoffset : RHO[(0 : Fin 25)] = 0 := rfl
  rw [pi_rho_getElem]
  simp only [hsource, hoffset, rotl64_zero]

/-- The loop visits every lane but lane 0, each once. -/
theorem PILN_injective : ∀ j k : Fin 24, PILN[j] = PILN[k] → j = k := by decide

theorem exists_PILN_eq : ∀ i : Fin 25, i ≠ 0 → ∃ j : Fin 24, PILN[j] = i := by decide

/-- Each visit rotates by the offset of the lane that pi moves there. -/
theorem ROTC_eq_RHO : ∀ k : Fin 24, ROTC[k] = RHO[PI_SRC[PILN[k]]] := by decide

/-- The lane visited is the one that pi moves to the next place. -/
theorem PI_SRC_PILN_next : ∀ k next : Fin 24, next.val = k.val + 1 → PI_SRC[PILN[next]] = PILN[k] := by decide

/-- The state and the pivot after `k` iterations of the loop. -/
def rhoPiPrefix (A : Lanes) (k : Nat) : Lanes × Lane := ((List.finRange 24).take k).foldl rhoPiStep (A, A[1])

theorem rhoPiPrefix_succ (A : Lanes) {k : Nat} (hk : k < 24) :
    rhoPiPrefix A (k + 1) = rhoPiStep (rhoPiPrefix A k) ⟨k, hk⟩ := by
  rw [rhoPiPrefix, take_finRange_succ hk, List.foldl_append]
  rfl

theorem exists_val_lt_succ {k : Nat} (hk : k < 24) (P : Fin 24 → Prop) :
    (∃ j : Fin 24, j.val < k + 1 ∧ P j) ↔ (∃ j : Fin 24, j.val < k ∧ P j) ∨ P ⟨k, hk⟩ := by
  have hlast : ∀ j : Fin 24, j.val = k ↔ j = ⟨k, hk⟩ := fun j => (Fin.ext_iff (b := ⟨k, hk⟩)).symm
  simp only [Nat.lt_succ_iff_lt_or_eq, or_and_right, exists_or, hlast, exists_eq_left]

/-- After `k` iterations the first `k` places visited hold their lane of rho and pi, every other place its old lane, and
the pivot the old lane that goes to the next place. -/
theorem rhoPiPrefix_eq (A : Lanes) (k : Nat) (hk : k ≤ 24) :
    (∀ i : Fin 25, (rhoPiPrefix A k).1[i] = if ∃ j : Fin 24, j.val < k ∧ PILN[j] = i then (pi (rho A))[i] else A[i]) ∧
      ∀ next : Fin 24, next.val = k → (rhoPiPrefix A k).2 = A[PI_SRC[PILN[next]]] := by
  induction k with
  | zero =>
    refine ⟨fun i => by simp [rhoPiPrefix], fun next hnext => ?_⟩
    obtain rfl : next = 0 := Fin.ext hnext
    rfl
  | succ k ih =>
    obtain ⟨hlanes, hpivot⟩ := ih (by omega)
    rw [rhoPiPrefix_succ A hk]
    refine ⟨fun i => ?_, fun next hnext => ?_⟩
    · have hvisited := exists_val_lt_succ hk fun j => PILN[j] = i
      by_cases hi : PILN[(⟨k, hk⟩ : Fin 24)] = i
      · rw [if_pos (hvisited.mpr (.inr hi)), ← hi, pi_rho_getElem, ← ROTC_eq_RHO, ← hpivot _ rfl]
        simp [rhoPiStep]
      · have hne : PILN[(⟨k, hk⟩ : Fin 24)].val ≠ i.val := fun h => hi (Fin.ext h)
        simp only [hvisited, hi, or_false, ← hlanes i]
        exact Vector.getElem_set_ne (Fin.is_lt _) i.isLt hne
    · have hfresh : ¬ ∃ j : Fin 24, j.val < k ∧ PILN[j] = PILN[(⟨k, hk⟩ : Fin 24)] := by
        rintro ⟨j, hj, h⟩
        have := congrArg Fin.val (PILN_injective j ⟨k, hk⟩ h)
        simp at this
        omega
      have hsource := PI_SRC_PILN_next ⟨k, hk⟩ next hnext
      simp only [hsource]
      exact (hlanes _).trans (if_neg hfresh)

/-- Settles O51: after 24 iterations every lane but lane 0 has been visited, and rho and pi leave lane 0 as it is. -/
theorem inPlaceLoopIsRhoThenPi : Obligations.InPlaceLoopIsRhoThenPi := by
  intro A
  have hwhole : rhoPiPrefix A 24 = rhoPiLoop A := by rw [rhoPiPrefix, List.take_of_length_le (by simp), rhoPiLoop]
  have hlane : ∀ i : Fin 25, (rhoPiLoop A).1[i] = (pi (rho A))[i] := fun i => by
    rw [← hwhole, (rhoPiPrefix_eq A 24 le_rfl).1 i]
    split_ifs with hvisited
    · rfl
    · obtain rfl : i = 0 := by
        by_contra hi
        obtain ⟨j, hj⟩ := exists_PILN_eq i hi
        exact hvisited ⟨j, j.isLt, hj⟩
      exact (pi_rho_zero A).symm
  exact Vector.ext fun i hi => hlane ⟨i, hi⟩

/-! ### The core's schedule (rules R32, R91) -/

theorem runRound_work (w : CoreWork) : w.runRound.work = keccakRound w.work w.round := by
  have hloop := inPlaceLoopIsRhoThenPi (theta w.work)
  rw [keccakRound, ← hloop, ← chiInPlace_eq_chi]
  rfl

/-- After `k` rounds from round 0 the working state is that of the first `k` rounds of the permutation. -/
theorem runRounds_work {w : CoreWork} (hw : w.round = 0) (k : Nat) (hk : k ≤ 24) :
    (CoreWork.runRounds k w).work = ((List.finRange 24).take k).foldl keccakRound w.work := by
  induction k with
  | zero => rfl
  | succ k ih =>
    have hround : (CoreWork.runRounds k w).round = ⟨k, hk⟩ := by
      rw [runRounds_round k w hw]
      exact Fin.ext (Nat.mod_eq_of_lt hk)
    rw [runRounds_succ, runRound_work, ih (by omega), hround, take_finRange_succ hk, List.foldl_append]
    rfl

/-- Settles O52: 24 rounds are the whole list of rounds, and 24 is 0 again. -/
theorem coreScheduleComputesKeccakF : Obligations.CoreScheduleComputesKeccakF := by
  intro w A
  refine ⟨?_, runRounds_round 24 (w.start A) rfl⟩
  rw [CoreWork.run, runRounds_work rfl 24 le_rfl, List.take_of_length_le (by simp)]
  rfl

end Sys2Proof.Machine

/-! PROOF. Keccak-f[1600] is a bijection (rule R93): each stage is injective, theta because its map on the column
parities is. -/

namespace Sys2Proof.Machine

/-! ### Iota, chi, pi and rho -/

theorem iota_injective (r : Fin 24) : Function.Injective fun A => iota A r := by
  intro A B h
  ext1 i hi
  have hlane : (iota A r)[i] = (iota B r)[i] := by rw [show iota A r = iota B r from h]
  rw [iota_getElem, iota_getElem] at hlane
  split_ifs at hlane
  · exact (BitVec.xor_left_inj _).mp hlane
  · exact hlane

/-- Five bits of a row are recovered from those after chi. -/
theorem chi_bit_inverse (a b c d e : Bool) :
    let y := fun p q r : Bool => p ^^ (!q && r)
    a = (y a b c ^^ (!y b c d && (y c d e ^^ (!y d e a && y e a b)))) := by
  revert a b c d e
  decide

theorem chi_injective : Function.Injective chi := by
  intro A B h
  refine lanes_eq_of_getLsbD_eq fun x y z => ?_
  have hbit : ∀ x, ((laneAt A x y).getLsbD z ^^ (!(laneAt A (x + 1) y).getLsbD z && (laneAt A (x + 2) y).getLsbD z)) =
      ((laneAt B x y).getLsbD z ^^ (!(laneAt B (x + 1) y).getLsbD z && (laneAt B (x + 2) y).getLsbD z)) := fun x => by
    rw [← chi_getLsbD A x y z.isLt, ← chi_getLsbD B x y z.isLt, h]
  have h0 := hbit x
  have h1 := hbit (x + 1)
  have h2 := hbit (x + 2)
  have h3 := hbit (x + 3)
  have h4 := hbit (x + 4)
  simp only [add_assoc, Fin.reduceAdd, add_zero] at h1 h2 h3 h4
  rw [chi_bit_inverse ((laneAt A x y).getLsbD z) ((laneAt A (x + 1) y).getLsbD z) ((laneAt A (x + 2) y).getLsbD z)
      ((laneAt A (x + 3) y).getLsbD z) ((laneAt A (x + 4) y).getLsbD z),
    chi_bit_inverse ((laneAt B x y).getLsbD z) ((laneAt B (x + 1) y).getLsbD z) ((laneAt B (x + 2) y).getLsbD z)
      ((laneAt B (x + 3) y).getLsbD z) ((laneAt B (x + 4) y).getLsbD z)]
  simp only [h0, h1, h2, h3, h4]

theorem pi_injective : Function.Injective pi := by
  intro A B h
  refine lanes_eq_of_laneAt_eq fun x y => ?_
  rw [← laneAt_pi_dest A, ← laneAt_pi_dest B, h]

theorem rotl64_injective {n : Nat} (hn : n ≤ 63) : Function.Injective fun a => rotl64 a n := by
  intro a b h
  refine BitVec.eq_of_getLsbD_eq fun j hj => ?_
  have hback : ((j + n) % 64 + 64 - n) % 64 = j := by omega
  have hbit := congrArg (fun v => v.getLsbD ((j + n) % 64)) h
  simpa only [rotl64_getLsbD _ hn (Nat.mod_lt _ (by decide : 0 < 64)), hback] using hbit

theorem rho_injective : Function.Injective rho := by
  intro A B h
  refine lanes_eq_of_laneAt_eq fun x y => ?_
  have hoffset : RHO[x.val + 5 * y.val] ≤ 63 := RHO_le ⟨x.val + 5 * y.val, by omega⟩
  have hlane : laneAt (rho A) x y = laneAt (rho B) x y := by rw [h]
  rw [laneAt_rho, laneAt_rho] at hlane
  exact rotl64_injective hoffset hlane

/-! ### Theta -/

/-- Each bit of `f` is the sum modulo 2 of the two bits `s` and `t` further on. -/
def SumOfTwo {G : Type} [Add G] (f : G → Bool) (s t : G) : Prop := ∀ p, f p = (f (p + s) ^^ f (p + t))

section
variable {G : Type} [AddCommMonoid G] {f : G → Bool} {s t : G}

/-- The square of a sum of two is the sum of the squares, since bits are added modulo 2. -/
theorem SumOfTwo.double (h : SumOfTwo f s t) : SumOfTwo f (2 • s) (2 • t) := fun p =>
  calc f p = ((f (p + s + s) ^^ f (p + s + t)) ^^ (f (p + t + s) ^^ f (p + t + t))) := by
        rw [← h (p + s), ← h (p + t)]
        exact h p
    _ = ((f (p + 2 • s) ^^ f (p + s + t)) ^^ (f (p + s + t) ^^ f (p + 2 • t))) := by
        rw [add_right_comm p t s, add_assoc p s s, add_assoc p t t, two_nsmul, two_nsmul]
    _ = (f (p + 2 • s) ^^ f (p + 2 • t)) := by simp

theorem SumOfTwo.iterate (h : SumOfTwo f s t) (n : Nat) : SumOfTwo f (2 ^ n • s) (2 ^ n • t) := by
  induction n with
  | zero => simpa using h
  | succ n ih => simpa only [pow_succ, mul_nsmul] using ih.double

end

/-- The parity of column `x` at bit `z`. -/
def parityBit (A : Lanes) (p : Fin 5 × Fin 64) : Bool := (columnParity A)[p.1].getLsbD p.2

theorem theta_getLsbD_parityBit (A : Lanes) (x y : Fin 5) (z : Fin 64) : (laneAt (theta A) x y).getLsbD z =
    ((laneAt A x y).getLsbD z ^^ parityBit A ((x, z) + (4, 0)) ^^ parityBit A ((x, z) + (1, 63))) := by
  rw [theta_getLsbD A x y z.isLt]
  simp [parityBit, Fin.val_add]

/-- Theta adds the same two bits to each of the five of a column, and so to their parity. -/
theorem parityBit_theta (A : Lanes) (p : Fin 5 × Fin 64) :
    parityBit (theta A) p = (parityBit A p ^^ parityBit A (p + (4, 0)) ^^ parityBit A (p + (1, 63))) := by
  obtain ⟨x, z⟩ := p
  have hcolumn : ∀ B : Lanes, parityBit B (x, z) = ((laneAt B x 0).getLsbD z ^^ (laneAt B x 1).getLsbD z ^^
      (laneAt B x 2).getLsbD z ^^ (laneAt B x 3).getLsbD z ^^ (laneAt B x 4).getLsbD z) :=
    fun B => columnParity_getLsbD B x z
  rw [hcolumn (theta A), hcolumn A]
  simp only [theta_getLsbD_parityBit]
  grind

/-- The kernel of theta's map on the parities is zero: after seven doublings every bit is a sum of two bits in its own
row, two and three columns on, and the five such equations of a row leave it no bit set. -/
theorem eq_false_of_sumOfTwo {f : Fin 5 × Fin 64 → Bool} (h : SumOfTwo f (4, 0) (1, 63)) (p : Fin 5 × Fin 64) :
    f p = false := by
  have hs : 2 ^ 7 • ((4, 0) : Fin 5 × Fin 64) = (2, 0) := by decide +kernel
  have ht : 2 ^ 7 • ((1, 63) : Fin 5 × Fin 64) = (3, 0) := by decide +kernel
  have hrow : SumOfTwo f (2, 0) (3, 0) := hs ▸ ht ▸ h.iterate 7
  have h0 := hrow p
  have h1 := hrow (p + (1, 0))
  have h4 := hrow (p + (4, 0))
  have hbits : ∀ b0 b1 b2 b3 b4 : Bool, b0 = (b2 ^^ b3) → b1 = (b3 ^^ b4) → b4 = (b1 ^^ b2) → b0 = false := by decide
  simp only [add_assoc, Prod.mk_add_mk, Fin.reduceAdd, add_zero] at h1 h4
  exact hbits _ _ _ _ _ h0 h1 h4

theorem parityBit_eq_of_theta_eq {A B : Lanes} (h : theta A = theta B) (p : Fin 5 × Fin 64) :
    parityBit A p = parityBit B p := by
  have hsum : SumOfTwo (fun p => parityBit A p ^^ parityBit B p) (4, 0) (1, 63) := fun p => by
    have hparity := parityBit_theta A p
    rw [h, parityBit_theta B p] at hparity
    have hbits : ∀ a b c d e g : Bool, (a ^^ b ^^ c) = (d ^^ e ^^ g) → (d ^^ a) = ((e ^^ b) ^^ (g ^^ c)) := by decide
    exact hbits _ _ _ _ _ _ hparity
  simpa using eq_false_of_sumOfTwo hsum p

theorem theta_injective : Function.Injective theta := by
  intro A B h
  refine lanes_eq_of_getLsbD_eq fun x y z => ?_
  have hbit := theta_getLsbD_parityBit A x y z
  rw [h, theta_getLsbD_parityBit, parityBit_eq_of_theta_eq h, parityBit_eq_of_theta_eq h] at hbit
  simpa using hbit.symm

/-! ### The permutation -/

theorem keccakRound_injective (r : Fin 24) : Function.Injective fun A => keccakRound A r :=
  (iota_injective r).comp (chi_injective.comp (pi_injective.comp (rho_injective.comp theta_injective)))

theorem keccakF_injective : Function.Injective keccakF := by
  have hrounds : ∀ rounds : List (Fin 24), Function.Injective fun A => rounds.foldl keccakRound A := fun rounds => by
    induction rounds with
    | nil => exact Function.injective_id
    | cons r rounds ih => exact ih.comp (keccakRound_injective r)
  exact hrounds _

theorem corePort_injective : Function.Injective corePort := by
  intro S T h
  have hlanes : keccakF (unflatten S) = keccakF (unflatten T) := Function.LeftInverse.injective unflatten_flatten h
  exact Function.LeftInverse.injective flatten_unflatten (keccakF_injective hlanes)

/-- Settles O54: there are finitely many vectors, so an injective function on them is a bijection. -/
theorem keccakFIsABijection : Obligations.KeccakFIsABijection := by
  have hfinite : Finite (BitVec 1600) := Finite.of_equiv _ BitVec.equivFin.symm.toEquiv
  exact Finite.injective_iff_bijective.mp corePort_injective

end Sys2Proof.Machine
